-- ==== Sys2Proof/Word.lean ====
section
/-! DEFINITION. The word types of the block and the fixed sets of names its rules range over. -/

namespace Sys2Proof

/-- One byte: a byte of `CBUF`, a request-type or request-code byte (R8, R35). -/
abbrev Byte := BitVec 8

/-- A 16-bit value: the accumulator `ACC`, `REQ.len`, a command word (R29, R32, R80). -/
abbrev Half := BitVec 16

/-- A 32-bit value: the staged serial word `SW.word` (R30). -/
abbrev Word := BitVec 32

/-- The direction a request-type byte names (R142): `0x40` download (host to device), `0xC0` upload. -/
inductive Dir where
  | download
  | upload
  deriving DecidableEq, Repr

/-- The six output lines (R12, R21). -/
inductive Line where
  | data
  | clk
  | le
  | trig
  | ce
  | pdrf
  deriving DecidableEq, Repr

/-- The strobe a write ends with: latch-enable in mode `LATCH`, trigger in mode `TRIGGER` (R110). -/
inductive Strobe where
  | le
  | trig
  deriving DecidableEq, Repr

end Sys2Proof
end

