-- ==== Sys2Proof/Syntax.lean ====
section
/-! DEFINITION. The vendor commands (R4, R86): the block's instruction set as syntax. -/

namespace Sys2Proof

/-- One constructor per mnemonic of the opcode table. A command's payload is in `CBUF`, not in the command word
(R81), so only the bits of the command word that the row leaves free are operands here. -/
inductive Instr where
  /-- `SPI.WR`, `CW = 0x40DD` (R148). -/
  | spiWr
  /-- `SPI.RD`, `CW = 0xC0DD` (R149). -/
  | spiRd
  /-- `TRIG.WR`, `CW = 0x40D9` (R150). -/
  | trigWr
  /-- `STAT.RD`, `CW = 0x40DF` or `0xC0DF`: bit 15, the direction, is free (R151). -/
  | statRd (dir : Dir)
  /-- `CEPD.WR`, `CW = 0x40D8` (R152). -/
  | cepdWr
  /-- `UNKNOWN`: every other command word of type `0x40` or `0xC0` (R153, the table's nine `UNKNOWN` rows). -/
  | unknown (dir : Dir) (code : Byte)
  deriving DecidableEq, Repr

end Sys2Proof
end

