-- ==== Sys2Proof/WellFormed.lean ====
section
/-! DEFINITION. Which terms of `Instr` stand for a command word: `UNKNOWN` takes only what no other row takes (R86). -/

namespace Sys2Proof

/-- The command words rules R148 to R152 take, as direction and request code (R86). -/
def definedCommand : Dir → Byte → Bool
  | .download, c => c == 0xDD || c == 0xD9 || c == 0xDF || c == 0xD8
  | .upload, c => c == 0xDD || c == 0xDF

/-- `UNKNOWN` is well-formed only for a command word of no other row (R86, R88, R153); the other rows have no
ill-formed operand. -/
def Instr.wellFormed : Instr → Bool
  | .spiWr => true
  | .spiRd => true
  | .trigWr => true
  | .statRd _ => true
  | .cepdWr => true
  | .unknown d c => !definedCommand d c

end Sys2Proof
end

