-- ==== Sys2Proof/Decode.lean ====
section
/-! DEFINITION. Decoding a request header (R80, R82, R141), the encoder written from the same table, and the opcode
table of rule R86 as fourteen disjoint rows. -/

namespace Sys2Proof

/-- Why a header selects no command. -/
inductive DecodeError where
  /-- The request-type byte is neither `0x40` nor `0xC0`: the block is not selected (R82, U8). -/
  | notSelected (type : Byte)
  deriving DecidableEq, Repr

/-- What the decoder answers: an instruction, or a rejection by name. -/
inductive Decoded where
  | instr (i : Instr)
  | rejected (why : DecodeError)
  deriving DecidableEq, Repr

/-- The instruction of a decoding, if it is one. -/
def Decoded.toOption : Decoded → Option Instr
  | .instr i => some i
  | .rejected _ => none

/-- The request-type byte of a direction (R80, R142). -/
def Dir.typeByte : Dir → Byte
  | .download => 0x40
  | .upload => 0xC0

/-- The direction of a request-type byte; the whole byte is compared (R82, R158 (e)). -/
def dirOfType (type : Byte) : Option Dir :=
  if type = 0x40 then some .download
  else if type = 0xC0 then some .upload
  else none

/-- The row of the opcode map a direction and a request code select (R86, R141). -/
def decodeCommand (d : Dir) (code : Byte) : Instr :=
  match d with
  | .download =>
    if code = 0xDD then .spiWr
    else if code = 0xD9 then .trigWr
    else if code = 0xDF then .statRd .download
    else if code = 0xD8 then .cepdWr
    else .unknown .download code
  | .upload =>
    if code = 0xDD then .spiRd
    else if code = 0xDF then .statRd .upload
    else .unknown .upload code

/-- Decoding the two header bytes `REQ.type` and `REQ.code` (R80, R82, R141). -/
def decodeHeader (type code : Byte) : Decoded :=
  match dirOfType type with
  | some d => .instr (decodeCommand d code)
  | none => .rejected (.notSelected type)

/-- `CW[15:8]` (R80). -/
def cwType (cw : Half) : Byte := cw.extractLsb' 8 8

/-- `CW[7:0]` (R80). -/
def cwCode (cw : Half) : Byte := cw.extractLsb' 0 8

/-- Decoding a command word `CW = REQ.type : REQ.code` (R80). -/
def decode (cw : Half) : Decoded := decodeHeader (cwType cw) (cwCode cw)

/-- The request-type byte of a command (R86). -/
def Instr.typeByte : Instr → Byte
  | .spiWr => 0x40
  | .spiRd => 0xC0
  | .trigWr => 0x40
  | .statRd d => d.typeByte
  | .cepdWr => 0x40
  | .unknown d _ => d.typeByte

/-- The request-code byte of a command (R86). -/
def Instr.codeByte : Instr → Byte
  | .spiWr => 0xDD
  | .spiRd => 0xDD
  | .trigWr => 0xD9
  | .statRd _ => 0xDF
  | .cepdWr => 0xD8
  | .unknown _ c => c

/-- The command word of an instruction, request type in the upper byte (R80). -/
def encode (i : Instr) : Half := i.typeByte ++ i.codeByte

/-- The table's mnemonic of an instruction (R86). -/
def Instr.mnemonic : Instr → String
  | .spiWr => "SPI.WR"
  | .spiRd => "SPI.RD"
  | .trigWr => "TRIG.WR"
  | .statRd _ => "STAT.RD"
  | .cepdWr => "CEPD.WR"
  | .unknown _ _ => "UNKNOWN"

/-- A row of the opcode table: it takes the command words that agree with `value` on the bits of `mask` (R86). -/
structure OpcodeRow where
  mnemonic : String
  value : Half
  mask : Half
  deriving DecidableEq, Repr

/-- Whether a row takes a command word (R86). -/
def OpcodeRow.takes (r : OpcodeRow) (cw : Half) : Bool := cw &&& r.mask == r.value

/-- The five rows of the defined commands (R86). -/
def definedRows : List OpcodeRow :=
  [⟨"SPI.WR", 0x40DD, 0xFFFF⟩, ⟨"SPI.RD", 0xC0DD, 0xFFFF⟩, ⟨"TRIG.WR", 0x40D9, 0xFFFF⟩, ⟨"STAT.RD", 0x40DF, 0x7FFF⟩,
   ⟨"CEPD.WR", 0x40D8, 0xFFFF⟩]

/-- The nine disjoint rows of `UNKNOWN` (R86): code patterns `0xxxxxxx`, `10xxxxxx`, `111xxxxx`, `1100xxxx`,
`11010xxx`, `1101101x`, `11011100`, `11011110` in either direction, and `0xC0D8`, `0xC0D9`. -/
def unknownRows : List OpcodeRow :=
  [⟨"UNKNOWN", 0x4000, 0x7F80⟩, ⟨"UNKNOWN", 0x4080, 0x7FC0⟩, ⟨"UNKNOWN", 0x40E0, 0x7FE0⟩, ⟨"UNKNOWN", 0x40C0, 0x7FF0⟩,
   ⟨"UNKNOWN", 0x40D0, 0x7FF8⟩, ⟨"UNKNOWN", 0x40DA, 0x7FFE⟩, ⟨"UNKNOWN", 0x40DC, 0x7FFF⟩, ⟨"UNKNOWN", 0x40DE, 0x7FFF⟩,
   ⟨"UNKNOWN", 0xC0D8, 0xFFFE⟩]

/-- The fourteen rows of the opcode table, pairwise disjoint (R86). -/
def opcodeTable : List OpcodeRow := definedRows ++ unknownRows

/-- The command word the host's table numbering gives: the low `nbits` bits of `w`, all bits above them 0; `none`
where a bit above the 16 of a command word is set. -/
def tableWord (nbits w : Nat) : Option Half :=
  if w % 2 ^ nbits < 65536 then some (BitVec.ofNat 16 (w % 2 ^ nbits)) else none

/-- The decoder on a word numbered as the opcode table numbers it. -/
def decodeTableWord (nbits w : Nat) : Option Instr :=
  match tableWord nbits w with
  | some cw => (decode cw).toOption
  | none => none

end Sys2Proof
end

