-- ==== Sys2Proof/Config.lean ====
section
/-! DEFINITION. The parameters of rule R9 and the free values: what the spec leaves to an implementation, and what it
leaves open at every use. -/

namespace Sys2Proof

/-- The parameters of rule R9 with the defaults it gives, and one of the model's own, `lateFill` (log 18). `RESET_PORT` is given whole, so its non-line bits have a value
too (log 8). -/
structure RawParams where
  /-- `PORT_W`, the width of `PORT_OUT` and `PORT_IN`. -/
  portW : Nat := 8
  pinData : Nat := 0
  pinClk : Nat := 1
  pinLe : Nat := 2
  pinTrig : Nat := 3
  pinCe : Nat := 4
  pinPdrf : Nat := 5
  /-- `PIN_DIN`, the position of data-in in `PORT_IN`. -/
  pinDin : Nat := 0
  /-- `CBUF_SIZE`, the number of bytes of the control-transfer buffer. -/
  cbufSize : Nat := 64
  /-- `T_HOLD`, a lower bound on the length of one `HOLD`; none = untimed. No rule reads it (R9, R105). -/
  tHold : Option Nat := none
  /-- `STRICT_BITCOUNT`: refuse a bit count outside 1 to 32 with `InvalidBitCount` (R144). -/
  strictBitCount : Bool := false
  /-- `EP_WAIT_LIMIT`: give up the wait for endpoint idle after that many busy polls (R143). -/
  epWaitLimit : Option Nat := none
  /-- Whether `USBC` goes on writing `CBUF` under `EP_BUSY` after a request is accepted, until a wait passes: by default not
  (R16, R29), if set so (R40 (a), R183). The model's own parameter, for a point on which the rules differ (log 18). -/
  lateFill : Bool := false
  /-- `RESET_PORT`, the value of `PORT_OUT` after reset. -/
  resetPort : BitVec portW
  deriving DecidableEq, Repr

/-- The position of an output line in `PORT_OUT` (R9, R100). -/
def RawParams.pin (p : RawParams) : Line → Nat
  | .data => p.pinData
  | .clk => p.pinClk
  | .le => p.pinLe
  | .trig => p.pinTrig
  | .ce => p.pinCe
  | .pdrf => p.pinPdrf

/-- The six output positions in the order of rule R9. -/
def RawParams.pins (p : RawParams) : List Nat :=
  [p.pinData, p.pinClk, p.pinLe, p.pinTrig, p.pinCe, p.pinPdrf]

/-- The constraints of rule R9: every pin below `PORT_W`, the six outputs pairwise distinct, `CBUF_SIZE >= 5`. -/
def RawParams.admissible (p : RawParams) : Bool :=
  p.pins.all (fun i => decide (i < p.portW)) && decide p.pins.Nodup && decide (p.pinDin < p.portW) && decide (5 ≤ p.cbufSize)

/-- Admissible parameters: the data of rule R9 with its constraints. -/
structure Params extends RawParams where
  ok : toRawParams.admissible = true
  deriving DecidableEq, Repr

/-- The defaults of rule R9. -/
def Params.default : Params := { resetPort := 0, ok := by decide }

/-- A free bit, fresh for each number: the level of `DATA` for a bit position of 32 or more (R115, U1) and a sample of
data-in the DUT's list does not give (R28, U6). Log 5. -/
opaque Config.freeBit : Nat → Bool

/-- A free byte, one for each reset and each offset: what a byte of `CBUF` that nothing has written since that reset
holds (R42, U9, U10). Log 6. -/
opaque Config.freeByte : Nat → Nat → Byte

end Sys2Proof
end

