-- ==== Sys2Proof/Machine/MicroOp.lean ====
section
/-! DEFINITION. The closed alphabets of rules R12 and R13, the sequencer's type (R36), and the moves of the agents
(R16, R183). -/

namespace Sys2Proof.Machine

/-- The completion statuses of rule R171, in its numbering 0 to 4. They are trace events only (R170). -/
inductive Status where
  | ok
  | unknownCommand
  | unknownEnableCode
  | invalidBitCount
  | endpointTimeout
  deriving DecidableEq, Repr

/-- The micro-operations of rule R12. -/
inductive MicroOp where
  /-- `SET L` (R101). -/
  | set (l : Line)
  /-- `CLR L` (R102). -/
  | clr (l : Line)
  /-- `HOLD` (R105). -/
  | hold
  /-- `ACLR` (R121). -/
  | aclr
  /-- `SHIN` (R122). -/
  | shin
  /-- `STL a` (R123). -/
  | stl (a : Nat)
  /-- `STH a` (R123). -/
  | sth (a : Nat)
  /-- `WAITIDLE` (R143). -/
  | waitIdle
  /-- `STAGEW S` (R144). -/
  | stageW (st : Strobe)
  /-- `STAGEE` (R145). -/
  | stageE
  /-- `ARM n` (R146). -/
  | arm (n : Nat)
  /-- `DONE s` (R147). -/
  | done (st : Status)
  deriving DecidableEq, Repr

/-- The events of rule R13. -/
inductive Event where
  /-- `L+`. -/
  | up (l : Line)
  /-- `L-`. -/
  | down (l : Line)
  /-- `H`. -/
  | hold
  /-- `Z`. -/
  | clear
  /-- `S(b)`. -/
  | sample (b : Bool)
  /-- `W(a,v)`. -/
  | store (a : Nat) (v : Byte)
  /-- `LW(word,count)`. -/
  | loadWord (word : Word) (count : Byte)
  /-- `LC(code)`. -/
  | loadCode (code : Byte)
  /-- `A(n)`. -/
  | arm (n : Nat)
  /-- `D(s)`. -/
  | done (st : Status)
  /-- `REQ(type,code)`. -/
  | request (type code : Byte)
  /-- `I`: a `WAITIDLE` that proceeds. -/
  | idle
  /-- `P`: a busy poll under `EP_WAIT_LIMIT`. -/
  | poll
  deriving DecidableEq, Repr

/-- The sequencer `SEQ` (R36). -/
inductive Seq where
  | idle
  | run (queue : List MicroOp)
  deriving DecidableEq, Repr

/-- What the USB controller may do (R183). -/
inductive UsbcMove where
  /-- Present a request: header, length, and the payload bytes written at offset 0 on. -/
  | present (type code : Byte) (len : Half) (payload : List Byte)
  /-- Write one payload byte while the buffer is the controller's (R40 (a)). -/
  | writeByte (a : Nat) (v : Byte)
  /-- Set `EP_BUSY`. -/
  | setBusy
  /-- Clear `EP_BUSY`. -/
  | clearBusy
  /-- Take the reply of a completed upload, or complete the status stage of a download. -/
  | takeReply
  deriving DecidableEq, Repr

/-- One move of one agent (R16). -/
inductive Move where
  /-- `ENGINE` takes one step: an acceptance or one micro-op (R37). -/
  | engine
  /-- `USBC` moves. -/
  | usbc (u : UsbcMove)
  /-- A reset occurs (R190). -/
  | reset
  deriving DecidableEq, Repr

/-- The output line of a strobe (R110). -/
def strobeLine : Strobe → Line
  | .le => .le
  | .trig => .trig

end Sys2Proof.Machine
end

