-- ==== Sys2Proof/Machine/State.lean ====
section
/-! DEFINITION. The state of rule R20 as plain data, the reasons a step can stop, and the state after reset (R42). -/

namespace Sys2Proof.Machine

/-- Reasons the model stops where the spec says the situation does not occur. -/
inductive Fault where
  /-- A `STL` or `STH` at an offset at or beyond `CBUF_SIZE` (R51, R124). Raised by `engineStep` on such a queue, which no
  command builds. Safe: the spec gives that store no meaning. -/
  | bufferOutOfRange (a : Nat)
  /-- `RUN([])`, which "cannot occur" (R37 (c)). Raised by `engineStep`. Safe: no reachable state has it. -/
  | emptyQueue
  deriving DecidableEq, Repr

/-- Reasons the model gives a request or a move no meaning. -/
inductive Refusal where
  /-- An instruction without a meaning, by mnemonic. Raised by no arm of `exec`. Safe. -/
  | notModelled (mnemonic : String)
  /-- A request whose type byte is neither `0x40` nor `0xC0` (R82, U8). Raised by `step` and `engineStep`. Safe: the
  spec refuses it. -/
  | notSelected (type : Byte)
  /-- `USBC` presents a request while one is pending or running (R183, U7). Raised by `usbcStep`. Safe. -/
  | requestOverlap
  /-- `USBC` touches `CBUF` or sets `EP_BUSY` while the buffer is not its own (R62, R183). Raised by `usbcStep`. Safe. -/
  | bufferOwned
  /-- `USBC` writes payload beyond `REQ.len` or beyond the buffer (R183). Raised by `usbcStep`. Safe. -/
  | payloadOutOfRange
  /-- `USBC` takes a reply when no request has completed (R183). Raised by `usbcStep`. Safe. -/
  | noReplyDue
  deriving DecidableEq, Repr

/-- The state of the block (R20), then the model's own observation and environment fields. -/
structure State where
  /-- The parameters of rule R9: configuration, changed by no step (log 2). -/
  params : Params
  /-- `PORT_OUT` (R21). -/
  portOut : BitVec params.portW
  /-- `PORT_IN` (R28). -/
  portIn : BitVec params.portW
  /-- `REQ.type` (R29). -/
  reqType : Byte
  /-- `REQ.code` (R29). -/
  reqCode : Byte
  /-- `REQ.len` (R29). -/
  reqLen : Half
  /-- `REQ.valid` (R29). -/
  reqValid : Bool
  /-- `SW.word` (R30). -/
  swWord : Word
  /-- `SW.count` (R30). -/
  swCount : Byte
  /-- `EN.code` (R31). -/
  enCode : Byte
  /-- `ACC` (R32). -/
  acc : Half
  /-- `REPLY_LEN` (R33). -/
  replyLen : Nat
  /-- `EP_BUSY` (R34). -/
  epBusy : Bool
  /-- `CBUF`: the bytes written since the last reset, addresses strictly rising (R35). -/
  cbuf : List Host.Cell
  /-- `SEQ` (R36). -/
  seq : Seq
  /-- `WAITCNT` (R37). -/
  waitCnt : Nat
  /-- The trace `TR`, oldest event first (R13). Model's own (log 4). -/
  trace : List Event
  /-- The answers the DUT will give to the coming samples of data-in (R28). Model's own (log 5). -/
  dutAnswers : List Bool
  /-- How many free bits have been drawn. Model's own (log 5). -/
  draws : Nat
  /-- How many reset events have occurred. Model's own (log 6). -/
  resets : Nat
  /-- The moves of the agents still to come, first to come first. Model's own (log 3). -/
  schedule : List Move
  /-- The replies the host has received, oldest first (R146). Model's own (log 9). -/
  hostReplies : List (List Byte)
  deriving DecidableEq, Repr

/-- The state after reset under given parameters: the values of rule R42, and 0 where it gives none (log 7). -/
def State.resetWith (p : Params) : State where
  params := p
  portOut := p.resetPort
  portIn := 0
  reqType := 0
  reqCode := 0
  reqLen := 0
  reqValid := false
  swWord := 0
  swCount := 0
  enCode := 0
  acc := 0
  replyLen := 0
  epBusy := false
  cbuf := []
  seq := .idle
  waitCnt := 0
  trace := []
  dutAnswers := []
  draws := 0
  resets := 0
  schedule := []
  hostReplies := []

/-- The machine right after power-on reset with the default parameters of rule R9 (R42, R190). -/
def State.reset : State := State.resetWith Params.default

end Sys2Proof.Machine
end

