-- ==== Sys2Proof/Machine/Ops.lean ====
section
/-! DEFINITION. The named operations over the buffer, the ports, the trace, data-in, and the start, the end and the reset
of a command. Every access of a micro-op goes through them. -/

namespace Sys2Proof.Machine

/-! ### The control-transfer buffer (R35, R59) -/

/-- The byte listed for an address. -/
def Memory.find : List Host.Cell → Nat → Option Byte
  | [], _ => none
  | (b, v) :: m, a => if a = b then some v else Memory.find m a

/-- Write one byte, keeping the addresses strictly rising. -/
def Memory.write : List Host.Cell → Nat → Byte → List Host.Cell
  | [], a, v => [(a, v)]
  | (b, w) :: m, a, v =>
    if a < b then (a, v) :: (b, w) :: m
    else if a = b then (a, v) :: m
    else (b, w) :: Memory.write m a v

/-- The canonical form: addresses strictly rising. An unlisted byte has no written value, so no entry can repeat it
(log 6). -/
def Memory.wf : List Host.Cell → Bool
  | [] => true
  | [_] => true
  | c :: d :: m => decide (c.1 < d.1) && Memory.wf (d :: m)

/-- Write bytes at consecutive addresses. -/
def Memory.writeList : List Host.Cell → Nat → List Byte → List Host.Cell
  | m, _, [] => m
  | m, a, v :: vs => Memory.writeList (Memory.write m a v) (a + 1) vs

/-- `CBUF[a]`: the byte written last since reset, or a free byte where nothing has been (R35, U9; log 6). -/
def State.cbufRead (s : State) (a : Nat) : Byte := (Memory.find s.cbuf a).getD (Config.freeByte s.resets a)

/-- `CBUF[a] <- v` (R11). -/
def State.cbufWrite (s : State) (a : Nat) (v : Byte) : State := { s with cbuf := Memory.write s.cbuf a v }

/-- `CBUF_SIZE` (R9). -/
def State.cbufSize (s : State) : Nat := s.params.cbufSize

/-! ### The ports (R21, R28, R60) -/

/-- `1 << PIN_L` in `PORT_W` bits (R101, R158 (h)). -/
def State.pinMask (s : State) (l : Line) : BitVec s.params.portW := 1#_ <<< s.params.pin l

/-- `line(L)`: the level of an output line (R11). -/
def State.line (s : State) (l : Line) : Bool := s.portOut.getLsbD (s.params.pin l)

/-- Bit `i` of `PORT_OUT`. -/
def State.portBit (s : State) (i : Nat) : Bool := s.portOut.getLsbD i

/-- Bit `i` of `PORT_IN`. -/
def State.inBit (s : State) (i : Nat) : Bool := s.portIn.getLsbD i

/-- `PORT_OUT <- PORT_OUT | (1 << PIN_L)` (R101). -/
def State.raiseLine (s : State) (l : Line) : State := { s with portOut := s.portOut ||| s.pinMask l }

/-- `PORT_OUT <- PORT_OUT & ~(1 << PIN_L)` (R102). -/
def State.lowerLine (s : State) (l : Line) : State := { s with portOut := s.portOut &&& ~~~ s.pinMask l }

/-- A port word with bit `i` at level `b`. -/
def portWithBit {w : Nat} (v : BitVec w) (i : Nat) (b : Bool) : BitVec w :=
  if b then v ||| (1#w <<< i) else v &&& ~~~ (1#w <<< i)

/-- The answer the DUT gives at the `j`-th coming sample: from its list, or a free bit where the list is used up
(R28, U6; log 5). -/
def State.answerAt (s : State) (j : Nat) : Bool :=
  match s.dutAnswers[j]? with
  | some b => b
  | none => Config.freeBit (s.draws + (j - s.dutAnswers.length))

/-- The DUT drives data-in to its next answer (R16, R28). -/
def State.dutDrive (s : State) : State :=
  { s with
    portIn := portWithBit s.portIn s.params.pinDin (s.answerAt 0)
    dutAnswers := s.dutAnswers.tail
    draws := if s.dutAnswers.isEmpty then s.draws + 1 else s.draws }

/-- `readLine(DIN)`: `PORT_IN[PIN_DIN]` (R103). -/
def State.readLine (s : State) : Bool := s.portIn.getLsbD s.params.pinDin

/-! ### The trace and the sequencer (R13, R36) -/

/-- Append an event to the trace (R13). -/
def State.emit (s : State) (e : Event) : State := { s with trace := s.trace ++ [e] }

/-- `SEQ <- RUN(Q)` (R37). -/
def State.resume (s : State) (q : List MicroOp) : State := { s with seq := .run q }

/-- Acceptance of a request with the micro-op list `q` (R140, R178): it saves nothing and changes no mode. -/
def State.accept (s : State) (type code : Byte) (q : List MicroOp) : State :=
  { s with seq := .run q, reqValid := false, waitCnt := 0, trace := s.trace ++ [.request type code] }

/-- `done(st)`: the end of a command (R147, R179). This block's return; it restores nothing. -/
def State.finish (s : State) (st : Status) : State :=
  { s with seq := .idle, trace := s.trace ++ [.done st] }

/-- A reset event (R190, R192): every piece of state as after reset, the rest of the queue discarded, no event. The
trace and the environment's own fields go on; unwritten bytes become fresh free bytes (log 6). -/
def State.hardReset (s : State) : State :=
  { State.resetWith s.params with
    trace := s.trace
    dutAnswers := s.dutAnswers
    draws := s.draws
    resets := s.resets + 1
    schedule := s.schedule
    hostReplies := s.hostReplies }

end Sys2Proof.Machine
end

