-- ==== Sys2Proof/Machine/Operands.lean ====
section
/-! DEFINITION. Every operand form: the payload formats `W` and `E`, the reply bytes, and the bits of a serial word
(R81, R83, R84, R53, R55, R158). -/

namespace Sys2Proof.Machine

/-- `SW.word = CBUF[3] : CBUF[2] : CBUF[1] : CBUF[0]` (R52, R83). -/
def State.payloadWord (s : State) : Word :=
  s.cbufRead 3 ++ s.cbufRead 2 ++ s.cbufRead 1 ++ s.cbufRead 0

/-- `SW.count = CBUF[4]` (R52, R83). -/
def State.payloadCount (s : State) : Byte := s.cbufRead 4

/-- `EN.code = CBUF[0]` (R84). -/
def State.payloadCode (s : State) : Byte := s.cbufRead 0

/-- `ACC[7:0]` (R123). -/
def State.accLow (s : State) : Byte := s.acc.extractLsb' 0 8

/-- `ACC[15:8]` (R123). -/
def State.accHigh (s : State) : Byte := s.acc.extractLsb' 8 8

/-- `trunc_16((ACC << 1) | zext_16(b))` (R122). -/
def shiftIn (acc : Half) (b : Bool) : Half := (acc <<< 1) ||| (BitVec.ofBool b).zeroExtend 16

/-- `bit(w, p)` of rule R111: `w[p]` below position 32, a draw at and above it (R115). `draw` is indexed by the distance
above 31. -/
def wordBit (draw : Nat → Bool) (w : Word) (p : Nat) : Bool :=
  if p < 32 then w.getLsbD p else draw (p - 32)

/-- The free bits the next write draws, from the counter on (R115; log 5). -/
def State.drawAt (s : State) (k : Nat) : Bool := Config.freeBit (s.draws + k)

/-- `CBUF[0 .. REPLY_LEN-1]`, what `USBC` sends to the host after an upload (R33, R146). -/
def State.replyBytes (s : State) : List Byte := (List.range s.replyLen).map s.cbufRead

end Sys2Proof.Machine
end

