-- ==== Sys2Proof/Machine/Flags.lean ====
section
/-! DEFINITION. The block has no flags, condition codes or predicates (R38): nothing to compute here but the value tests
that choose a completion status (R144, R145, R158 (e), (f)). -/

namespace Sys2Proof.Machine

/-- `SW.count = 0 or SW.count > 32` (R144, R158 (f)). -/
def countOutsideRange (n : Byte) : Bool := n.toNat == 0 || decide (32 < n.toNat)

/-- Whether `STAGEW` ends the command with `InvalidBitCount` (R144). -/
def State.refusesCount (s : State) (n : Byte) : Bool := s.params.strictBitCount && countOutsideRange n

/-- Whether an enable code is one of the four mapped codes, compared as a whole byte (R84, R163). -/
def codeMapped (c : Byte) : Bool := c == 0x04 || c == 0x14 || c == 0x0C || c == 0x1C

/-- The completion status of `CEPD.WR` (R145). -/
def enableStatus (c : Byte) : Status := if codeMapped c then .ok else .unknownEnableCode

end Sys2Proof.Machine
end

