-- ==== Sys2Proof/Machine/Lists.lean ====
section
/-! DEFINITION. The micro-op lists: `uops_write` (R111), `uops_read` (R124), `uops_status` (R131), `uops_enable` (R161)
and the program of each command (R141). Pure functions from operands to lists (R15). -/

namespace Sys2Proof.Machine

/-- `DRV b` (R12). -/
def drv (b : Bool) : MicroOp := if b then .set .data else .clr .data

/-- The group of one bit: `[DRV b, SET CLK, HOLD, CLR CLK, HOLD]` (R111, step 2). -/
def writeGroup (b : Bool) : List MicroOp := [drv b, .set .clk, .hold, .clr .clk, .hold]

/-- The groups for bit positions `n-1` down to 0 (R111, step 2). -/
def writeGroups (draw : Nat → Bool) (w : Word) : Nat → List MicroOp
  | 0 => []
  | p + 1 => writeGroup (wordBit draw w p) ++ writeGroups draw w p

/-- `uops_write(n, w, S)` (R111); `draw` gives the free bits of positions 32 and above (R115). -/
def uopsWrite (draw : Nat → Bool) (n : Nat) (w : Word) (st : Strobe) : List MicroOp :=
  [.clr (strobeLine st)] ++ writeGroups draw w n
    ++ [.hold, .set (strobeLine st), .hold, .clr (strobeLine st)]

/-- One read pulse: `[SET CLK, HOLD, SHIN, CLR CLK, HOLD]` (R124). -/
def readPulse : List MicroOp := [.set .clk, .hold, .shin, .clr .clk, .hold]

/-- `rep(m, readPulse)`. -/
def readPulses : Nat → List MicroOp
  | 0 => []
  | m + 1 => readPulse ++ readPulses m

/-- Word `j` of a read: clear, `m` pulses, three stores (R124, R53). -/
def readWord (m j : Nat) : List MicroOp :=
  [.aclr] ++ readPulses m ++ [.stl (3 * j), .sth (3 * j + 1), .sth (3 * j + 2)]

/-- `uops_read(k, m)` (R124). -/
def uopsRead (k m : Nat) : List MicroOp := (List.range k).flatMap (readWord m)

/-- `uops_status` (R131). -/
def uopsStatus : List MicroOp :=
  [.aclr] ++ readPulses 2 ++ [.stl 0] ++ [.aclr] ++ readPulses 8 ++ [.stl 1]

/-- `uops_enable(c)` (R161): both lines pre-cleared, then the set lines of the mapped codes. -/
def uopsEnable (c : Byte) : List MicroOp :=
  [.clr .ce, .clr .pdrf] ++
    (if c = 0x04 then []
     else if c = 0x14 then [.set .pdrf]
     else if c = 0x0C then [.set .ce]
     else if c = 0x1C then [.set .ce, .set .pdrf]
     else [])

/-- The program of `SPI.WR` (R148). -/
def programSpiWr : List MicroOp := [.waitIdle, .stageW .le]

/-- The program of `SPI.RD` (R149): the read helper is `uops_read(1, 8)` (R125). -/
def programSpiRd : List MicroOp := [.waitIdle] ++ uopsRead 1 8 ++ [.arm 2, .done .ok]

/-- The program of `TRIG.WR` (R150). -/
def programTrigWr : List MicroOp := [.waitIdle, .stageW .trig]

/-- The program of `STAT.RD`, the same in both directions (R151). -/
def programStatRd : List MicroOp := [.waitIdle] ++ uopsStatus ++ [.arm 2, .done .ok]

/-- The program of `CEPD.WR` (R152). -/
def programCepdWr : List MicroOp := [.waitIdle, .stageE]

/-- The program of `UNKNOWN` (R153): no wait. -/
def programUnknown : List MicroOp := [.arm 0, .done .unknownCommand]

/-- `program(type, code)` (R141), on the decoded command. -/
def program : Instr → List MicroOp
  | .spiWr => programSpiWr
  | .spiRd => programSpiRd
  | .trigWr => programTrigWr
  | .statRd _ => programStatRd
  | .cepdWr => programCepdWr
  | .unknown _ _ => programUnknown

end Sys2Proof.Machine
end

