-- ==== Sys2Proof/Machine/Engine.lean ====
section
/-! DEFINITION. `ENGINE`: the effect of each micro-op, one step of the sequencer (R37), and a command run to its end. -/

namespace Sys2Proof.Machine

/-! ### The micro-ops that act on the state and leave the queue to `microOp` -/

/-- `SET L` (R101). -/
def opSet (l : Line) (s : State) : State := (s.raiseLine l).emit (.up l)

/-- `CLR L` (R102). -/
def opClr (l : Line) (s : State) : State := (s.lowerLine l).emit (.down l)

/-- `HOLD` (R105). -/
def opHold (s : State) : State := s.emit .hold

/-- `ACC <- v` (R121, R122). -/
def State.setAcc (s : State) (v : Half) : State := { s with acc := v }

/-- `ACLR` (R121). -/
def opAclr (s : State) : State := (s.setAcc 0).emit .clear

/-- The second half of `SHIN`: the line is read once and its bit enters `ACC` at bit 0 (R122). -/
def shiftLine (s : State) : State := (s.setAcc (shiftIn s.acc s.readLine)).emit (.sample s.readLine)

/-- `SHIN` (R122): the DUT drives data-in at this instant (R28), then the line is shifted in. -/
def opShin (s : State) : State := shiftLine s.dutDrive

/-- `STL a` (R123). -/
def opStl (a : Nat) (s : State) : State := (s.cbufWrite a s.accLow).emit (.store a s.accLow)

/-- `STH a` (R123). -/
def opSth (a : Nat) (s : State) : State := (s.cbufWrite a s.accHigh).emit (.store a s.accHigh)

/-- `REPLY_LEN <- n` (R146). -/
def State.setReplyLen (s : State) (n : Nat) : State := { s with replyLen := n }

/-- `ARM n` (R146). -/
def opArm (n : Nat) (s : State) : State := (s.setReplyLen n).emit (.arm n)

/-! ### The micro-ops that choose what comes next (R37 (b)). `q` is the queue after the micro-op. -/

/-- One busy poll under `EP_WAIT_LIMIT`: `WAITCNT <- WAITCNT + 1` (R143). -/
def State.countPoll (s : State) : State := { s with waitCnt := s.waitCnt + 1 }

/-- `WAITIDLE` (R143). Without a limit a busy endpoint holds the block: the state does not change. A counter above the
limit, which no step reaches, is treated as at the limit (log 10). -/
def opWaitIdle (q : List MicroOp) (s : State) : State :=
  if s.epBusy = false then (s.emit .idle).resume q
  else
    match s.params.epWaitLimit with
    | none => s.resume (.waitIdle :: q)
    | some limit =>
      if s.waitCnt < limit then (s.countPoll.emit .poll).resume (.waitIdle :: q)
      else (s.emit .poll).resume [.done .endpointTimeout]

/-- `SW.word <- w`, `SW.count <- n`, with the event `LW` (R144). -/
def State.loadSerialWord (s : State) (w : Word) (n : Byte) : State :=
  { s with swWord := w, swCount := n }.emit (.loadWord w n)

/-- Count `k` free bits as drawn (log 5). -/
def State.countDraws (s : State) (k : Nat) : State := { s with draws := s.draws + k }

/-- `STAGEW S` (R144). The expansion of a count above 32 draws one free bit per position at or above 32 (R115). -/
def opStageW (st : Strobe) (q : List MicroOp) (s : State) : State :=
  let w := s.payloadWord
  let n := s.payloadCount
  if s.refusesCount n then (s.loadSerialWord w n).resume (.done .invalidBitCount :: q)
  else
    ((s.loadSerialWord w n).countDraws (n.toNat - 32)).resume
      (uopsWrite s.drawAt n.toNat w st ++ MicroOp.done .ok :: q)

/-- `EN.code <- c`, with the event `LC` (R145). -/
def State.loadEnableCode (s : State) (c : Byte) : State := { s with enCode := c }.emit (.loadCode c)

/-- `STAGEE` (R145). -/
def opStageE (q : List MicroOp) (s : State) : State :=
  (s.loadEnableCode s.payloadCode).resume
    (uopsEnable s.payloadCode ++ MicroOp.done (enableStatus s.payloadCode) :: q)

/-- `DONE s` (R147). -/
def opDone (st : Status) (s : State) : State := s.finish st

/-- The effect of the micro-op at the head of the queue (R37 (b)): every micro-op but four goes on with the rest. -/
def microOp (op : MicroOp) (q : List MicroOp) (s : State) : State :=
  match op with
  | .set l => (opSet l s).resume q
  | .clr l => (opClr l s).resume q
  | .hold => (opHold s).resume q
  | .aclr => (opAclr s).resume q
  | .shin => (opShin s).resume q
  | .stl a => (opStl a s).resume q
  | .sth a => (opSth a s).resume q
  | .arm n => (opArm n s).resume q
  | .waitIdle => opWaitIdle q s
  | .stageW st => opStageW st q s
  | .stageE => opStageE q s
  | .done st => opDone st s

/-- The buffer offset a micro-op stores to. -/
def storeOffset : MicroOp → Option Nat
  | .stl a => some a
  | .sth a => some a
  | _ => none

/-! ### One step of `ENGINE` (R37) -/

/-- The acceptance step (R140): enabled when a request of type `0x40` or `0xC0` is pending. With no request the block
waits. -/
def acceptStep (s : State) : Host.Outcome State Fault Refusal :=
  if s.reqValid then
    match decodeHeader s.reqType s.reqCode with
    | .instr i => .next (s.accept s.reqType s.reqCode (program i))
    | .rejected (.notSelected t) => .refused (.notSelected t)
  else .next s

/-- One micro-op (R37 (b)); an offset outside the buffer and the empty queue, which no command produces, fault. -/
def runStep (s : State) : List MicroOp → Host.Outcome State Fault Refusal
  | [] => .fault .emptyQueue
  | op :: q =>
    match storeOffset op with
    | some a => if a < s.cbufSize then .next (microOp op q s) else .fault (.bufferOutOfRange a)
    | none => .next (microOp op q s)

/-- One step of `ENGINE`: an acceptance or one micro-op (R37). -/
def engineStep (s : State) : Host.Outcome State Fault Refusal :=
  match s.seq with
  | .idle => acceptStep s
  | .run q => runStep s q

/-- `k` steps of `ENGINE`, no other agent moving. -/
def engineSteps : Nat → State → Host.Outcome State Fault Refusal
  | 0, s => .next s
  | k + 1, s =>
    match engineStep s with
    | .next s' => engineSteps k s'
    | .fault f => .fault f
    | .refused r => .refused r

/-! ### A command run to its end (R16, R36, R178) -/

/-- At most `k` micro-ops, stopping at `IDLE`. A held `WAITIDLE` leaves the state as it is. -/
def drive : Nat → State → State
  | 0, s => s
  | k + 1, s =>
    match s.seq with
    | .run (op :: q) => drive k (microOp op q s)
    | .run [] => s
    | .idle => s

/-- A bound on the micro-ops of any command: the wait with its polls, the staging, five per bit and five more for a
count of 255, and the `DONE` (R111, R143). -/
def commandSteps (s : State) : Nat := 1300 + s.params.epWaitLimit.getD 0

/-- A command from its acceptance to its `DONE`, or to the `WAITIDLE` that holds it: "a request is processed atomically
end-to-end" (R36), "run to completion" (R16). No store of a command's list leaves the buffer, since offsets are at most 2
and `CBUF_SIZE >= 5` (R9, R51), so this is the iteration of `engineStep`. -/
def runCommand (type code : Byte) (q : List MicroOp) (s : State) : State :=
  drive (commandSteps s) (s.accept type code q)

end Sys2Proof.Machine
end

