-- ==== Sys2Proof/Machine/Dispatcher.lean ====
section
/-! DEFINITION. The dispatcher's default command, `UNKNOWN` (family 44; R153). -/

namespace Sys2Proof.Machine

/-- `UNKNOWN` (R153): a zero-length reply, no line changes, no wait. -/
def execUnknown (dir : Dir) (code : Byte) (s : State) : Host.Outcome State Fault Refusal :=
  .next (runCommand dir.typeByte code programUnknown s)

end Sys2Proof.Machine
end

