-- ==== Sys2Proof/Machine/EnableSetter.lean ====
section
/-! DEFINITION. The power/enable state setter's command, `CEPD.WR` (family 45; R152). -/

namespace Sys2Proof.Machine

/-- `CEPD.WR` (R152): both lines low, then the lines of a mapped code high. -/
def execCepdWr (s : State) : Host.Outcome State Fault Refusal := .next (runCommand 0x40 0xD8 programCepdWr s)

end Sys2Proof.Machine
end

