-- ==== Sys2Proof/Machine/SerialRead.lean ====
section
/-! DEFINITION. The read path's command, `SPI.RD` (family 42; R149). -/

namespace Sys2Proof.Machine

/-- `SPI.RD` (R149): eight samples, three bytes stored, a reply of two armed. -/
def execSpiRd (s : State) : Host.Outcome State Fault Refusal := .next (runCommand 0xC0 0xDD programSpiRd s)

end Sys2Proof.Machine
end

