-- ==== Sys2Proof/Machine/SerialWrite.lean ====
section
/-! DEFINITION. The write path's commands, `SPI.WR` and `TRIG.WR` (family 41; R148, R150). -/

namespace Sys2Proof.Machine

/-- `SPI.WR` (R148): write the payload word with strobe `LE`. -/
def execSpiWr (s : State) : Host.Outcome State Fault Refusal := .next (runCommand 0x40 0xDD programSpiWr s)

/-- `TRIG.WR` (R150): write the payload word with strobe `TRIG`; `LE` is not touched (R116). -/
def execTrigWr (s : State) : Host.Outcome State Fault Refusal := .next (runCommand 0x40 0xD9 programTrigWr s)

end Sys2Proof.Machine
end

