-- ==== Sys2Proof/Machine/StatusSnapshot.lean ====
section
/-! DEFINITION. The status snapshot's command, `STAT.RD` (family 43; R151). -/

namespace Sys2Proof.Machine

/-- `STAT.RD` (R151), in either direction: two samples and eight, two bytes stored, a reply of two armed. -/
def execStatRd (dir : Dir) (s : State) : Host.Outcome State Fault Refusal :=
  .next (runCommand dir.typeByte 0xDF programStatRd s)

end Sys2Proof.Machine
end

