-- ==== Sys2Proof/Machine/Dispatch.lean ====
section
/-! DEFINITION. The meaning of every command, one arm per constructor. -/

namespace Sys2Proof.Machine

def exec (i : Instr) (s : State) : Host.Outcome State Fault Refusal :=
  match i with
  | .spiWr => Sys2Proof.Machine.execSpiWr s
  | .spiRd => Sys2Proof.Machine.execSpiRd s
  | .trigWr => Sys2Proof.Machine.execTrigWr s
  | .statRd dir => Sys2Proof.Machine.execStatRd dir s
  | .cepdWr => Sys2Proof.Machine.execCepdWr s
  | .unknown dir code => Sys2Proof.Machine.execUnknown dir code s

end Sys2Proof.Machine
end

