-- ==== Sys2Proof/Machine/Usbc.lean ====
section
/-! DEFINITION. The moves of `USBC`, the USB controller with the host behind it (R183). A move the spec gives it no right
to is refused by name. -/

namespace Sys2Proof.Machine

/-- Whether `ENGINE` owns `CBUF`: from a passed `WAITIDLE` to the `DONE` of the same command (R62). `WAITIDLE` stands only
at the head of a program, and a queue that ends in `DONE UnknownCommand` or `DONE EndpointTimeout` has passed none
(R141, R143). -/
def ownsBuffer : Seq → Bool
  | .idle => false
  | .run q =>
    q.head? != some MicroOp.waitIdle && q.getLast? != some (MicroOp.done .unknownCommand)
      && q.getLast? != some (MicroOp.done .endpointTimeout)

/-- Whether `USBC` may write a byte of `CBUF`. While the block is idle: under `EP_BUSY` (R40 (a)) or while it prepares a
request (R183). From acceptance to `DONE` `ENGINE` is the only writer (R16); only on a platform with `lateFill` may `USBC` go
on under `EP_BUSY` as long as no wait has passed (R40 (a), R62, R183; log 18). -/
def State.bufferOpen (s : State) : Bool :=
  if s.seq = .idle then s.epBusy || !s.reqValid
  else s.params.lateFill && s.epBusy && !ownsBuffer s.seq

/-- Present a request (R183): only while `SEQ = IDLE` and `REQ.valid = 0` (U7). `REQ.len` is latched and never checked by
the block (R29). -/
def usbcPresent (type code : Byte) (len : Half) (payload : List Byte) (s : State) :
    Host.Outcome State Fault Refusal :=
  if s.seq = .idle ∧ s.reqValid = false then
    if payload.length ≤ len.toNat ∧ payload.length ≤ s.cbufSize then
      .next { s with
        reqType := type
        reqCode := code
        reqLen := len
        reqValid := true
        cbuf := Memory.writeList s.cbuf 0 payload }
    else .refused .payloadOutOfRange
  else .refused .requestOverlap

/-- Write one payload byte (R16, R40 (a), R183). -/
def usbcWriteByte (a : Nat) (v : Byte) (s : State) : Host.Outcome State Fault Refusal :=
  if s.bufferOpen then
    if a < s.cbufSize then .next (s.cbufWrite a v) else .refused .payloadOutOfRange
  else .refused .bufferOwned

/-- Set `EP_BUSY`: at any time `ENGINE` is not between a passed `WAITIDLE` and `DONE` (R183). -/
def usbcSetBusy (s : State) : Host.Outcome State Fault Refusal :=
  if ownsBuffer s.seq then .refused .bufferOwned else .next { s with epBusy := true }

/-- Clear `EP_BUSY` (R183). -/
def usbcClearBusy (s : State) : Host.Outcome State Fault Refusal := .next { s with epBusy := false }

/-- After `DONE` of an upload send `CBUF[0 .. REPLY_LEN-1]` to the host; after `DONE` of a download complete the status
stage, which changes nothing here (R146, R183; log 9). -/
def usbcTakeReply (s : State) : Host.Outcome State Fault Refusal :=
  if s.seq = .idle ∧ s.reqValid = false then
    if s.reqType = 0xC0 then .next { s with hostReplies := s.hostReplies ++ [s.replyBytes] }
    else if s.reqType = 0x40 then .next s
    else .refused .noReplyDue
  else .refused .noReplyDue

/-- One move of `USBC` (R183). -/
def usbcStep (u : UsbcMove) (s : State) : Host.Outcome State Fault Refusal :=
  match u with
  | .present type code len payload => usbcPresent type code len payload s
  | .writeByte a v => usbcWriteByte a v s
  | .setBusy => usbcSetBusy s
  | .clearBusy => usbcClearBusy s
  | .takeReply => usbcTakeReply s

end Sys2Proof.Machine
end

