-- ==== Sys2Proof/Machine/Moves.lean ====
section
/-! DEFINITION. One move of one agent (R16, R183), and what `step` reads of the request latch. -/

namespace Sys2Proof.Machine

/-- One move of one agent (R16): `ENGINE`, `USBC` or the reset source. -/
def agentStep (m : Move) (s : State) : Host.Outcome State Fault Refusal :=
  match m with
  | .engine => engineStep s
  | .usbc u => usbcStep u s
  | .reset => .next s.hardReset

/-- The request that is pending for an idle block, decoded (R140); `none` where there is none. -/
def State.pending (s : State) : Option Decoded :=
  if s.seq = .idle ∧ s.reqValid = true then some (decodeHeader s.reqType s.reqCode) else none

/-- The request latch loaded with a command word, the block idle and no other agent about to move: what it takes for
the very next step to run that command (log 3). -/
def State.withRequest (s : State) (cw : Half) : State :=
  { s with reqType := cwType cw, reqCode := cwCode cw, reqValid := true, seq := .idle, schedule := [] }

end Sys2Proof.Machine
end

