-- ==== Sys2Proof/Machine/Step.lean ====
section
/-! DEFINITION. One step of the machine. -/

namespace Sys2Proof.Machine

/-- One step. While the schedule lists moves, the next one is made, at the grain of rule R37: one acceptance or one
micro-op of `ENGINE`, one move of `USBC`, one reset. When it lists none, no other agent acts, and `ENGINE` alone goes on:
an idle block with a pending request runs that command to its end ("processed atomically end-to-end", R36), and a block in
`RUN` executes the micro-op at the head of its queue (log 3). -/
def step (s : State) : Host.Outcome State Fault Refusal :=
  match s.schedule with
  | m :: rest => agentStep m { s with schedule := rest }
  | [] =>
    match s.pending with
    | some (.instr i) => exec i s
    | some (.rejected (.notSelected t)) => .refused (.notSelected t)
    | none => engineStep s

/-- The state with the table's word where `step` takes its next command from: the request latch. -/
def State.withFetchWord (s : State) (nbits w : Nat) : State := s.withRequest (BitVec.ofNat 16 (w % 2 ^ nbits))

end Sys2Proof.Machine
end

