-- ==== Sys2Proof/Machine/Observe.lean ====
section
/-! DEFINITION. What an observer of the pins and of the trace sees: the events of the output lines (R13), the bits a chip
that shifts on rising clock edges takes (R50 (c), R118), and the traces of the lists written as the spec prints them. -/

namespace Sys2Proof.Machine

/-- The events of the output lines: `L+`, `L-`, `H` (R13). -/
def isLineEvent : Event → Bool
  | .up _ => true
  | .down _ => true
  | .hold => true
  | _ => false

/-- The subsequence of line events (R13). -/
def lineEvents (tr : List Event) : List Event := tr.filter isLineEvent

/-- The event of driving `DATA` to a level (R12, R13). -/
def dataEvent (b : Bool) : Event := if b then .up .data else .down .data

/-- The levels of `DATA` at the rising edges of `CLK`, in time order, from the given levels of `CLK` and `DATA` on: what
the downstream chip receives (R50 (c), R118). A `CLK+` while `CLK` is high is no rising edge (R197). -/
def shiftedOut (clk data : Bool) : List Event → List Bool
  | [] => []
  | .up .clk :: tr => if clk then shiftedOut true data tr else data :: shiftedOut true data tr
  | .down .clk :: tr => shiftedOut false data tr
  | .up .data :: tr => shiftedOut clk true tr
  | .down .data :: tr => shiftedOut clk false tr
  | _ :: tr => shiftedOut clk data tr

/-- Whether every `CLK+` stands directly after a `DATA` event and no `DATA` event stands between a `CLK+` and the next
`CLK-` (R113). `high`: inside a clock pulse; `fresh`: the event just before was a `DATA` event. -/
def clockAfterData (high fresh : Bool) : List Event → Bool
  | [] => !high
  | .up .clk :: tr => !high && fresh && clockAfterData true false tr
  | .down .clk :: tr => high && clockAfterData false false tr
  | .up .data :: tr => !high && clockAfterData high true tr
  | .down .data :: tr => !high && clockAfterData high true tr
  | _ :: tr => clockAfterData high false tr

/-- `B(b)`: the trace of one write group (R111, R119). -/
def groupTrace (b : Bool) : List Event := [dataEvent b, .up .clk, .hold, .down .clk, .hold]

/-- The traces of the groups for the listed bits, first bit first. -/
def groupsTrace (bs : List Bool) : List Event := bs.flatMap groupTrace

/-- The bits `uops_write(n, w, S)` drives, in time order: positions `n-1` down to 0 (R55, R111). -/
def writeBits (draw : Nat → Bool) (n : Nat) (w : Word) : List Bool :=
  (List.range n).map (fun i => wordBit draw w (n - 1 - i))

/-- The trace of `uops_write(n, w, S)` (R111, R119). -/
def writeTrace (draw : Nat → Bool) (n : Nat) (w : Word) (st : Strobe) : List Event :=
  [.down (strobeLine st)] ++ groupsTrace (writeBits draw n w)
    ++ [.hold, .up (strobeLine st), .hold, .down (strobeLine st)]

/-- `P(b)`: the trace of one read pulse (R124). -/
def pulseTrace (b : Bool) : List Event := [.up .clk, .hold, .sample b, .down .clk, .hold]

/-- The traces of the read pulses with the listed samples. -/
def pulsesTrace (bs : List Bool) : List Event := bs.flatMap pulseTrace

/-- The number a list of bits spells, first bit most significant (R56). -/
def msbFirst (bs : List Bool) : Nat := bs.foldl (fun v b => 2 * v + b.toNat) 0

/-- The answers of the DUT to the coming samples numbered `i` to `i + n - 1` (R28). -/
def State.answers (s : State) (i n : Nat) : List Bool := (List.range n).map (fun j => s.answerAt (i + j))

/-- The trace of `uops_enable(c)` (R161). -/
def enableTrace (c : Byte) : List Event :=
  [.down .ce, .down .pdrf] ++
    (if c = 0x04 then []
     else if c = 0x14 then [.up .pdrf]
     else if c = 0x0C then [.up .ce]
     else if c = 0x1C then [.up .ce, .up .pdrf]
     else [])

/-- The level of `CE` after `CEPD.WR` with code `c` (R84, R162). -/
def ceOf (c : Byte) : Bool := c == 0x0C || c == 0x1C

/-- The level of `PDRF` after `CEPD.WR` with code `c` (R84, R162). -/
def pdrfOf (c : Byte) : Bool := c == 0x14 || c == 0x1C

/-- The output lines a command may write (R22 to R27, R148 to R153). -/
def writesLine : Instr → Line → Bool
  | .spiWr, l => l == .data || l == .clk || l == .le
  | .spiRd, l => l == .clk
  | .trigWr, l => l == .data || l == .clk || l == .trig
  | .statRd _, l => l == .clk
  | .cepdWr, l => l == .ce || l == .pdrf
  | .unknown _ _, _ => false

/-- Whether an event drives the line `l`. -/
def drives (l : Line) : Event → Bool
  | .up l' => l' == l
  | .down l' => l' == l
  | _ => false

end Sys2Proof.Machine
end

