-- ==== Sys2Proof/Safety.lean ====
section
/-! DEFINITION. What counts as a safe state, the relations claims are stated with, and the command that writes with a
given strobe. -/

namespace Sys2Proof.Machine

/-! ### The invariant -/

/-- The level of line `l` after the listed micro-ops, from level `b`; a staging micro-op is taken as leaving it. -/
def levelAfter (l : Line) : List MicroOp → Bool → Bool
  | [], b => b
  | .set l' :: q, b => levelAfter l q (if l' = l then true else b)
  | .clr l' :: q, b => levelAfter l q (if l' = l then false else b)
  | _ :: q, b => levelAfter l q b

/-- Whether a micro-op ends a program of rule R141: `DONE`, or a staging micro-op, which brings its `DONE`. -/
def isFinal : MicroOp → Bool
  | .done _ => true
  | .stageW _ => true
  | .stageE => true
  | _ => false

/-- A queue is not empty and exactly its last micro-op ends the command (R37 (c)). -/
def queueEnds : List MicroOp → Bool
  | [] => false
  | [op] => isFinal op
  | op :: q => !isFinal op && queueEnds q

/-- A micro-op's offset or reply length fits a buffer of `size` bytes (R33, R51). -/
def operandFits (size : Nat) : MicroOp → Bool
  | .stl a => decide (a < size)
  | .sth a => decide (a < size)
  | .arm n => decide (n ≤ size)
  | _ => true

/-- The lines that are low whenever no command runs (R41). -/
def restLines : List Line := [.clk, .le, .trig]

/-- The lines of rule R41 are low now. -/
def State.atRest (s : State) : Prop := ∀ l ∈ restLines, s.line l = false

/-- The condition on the queue of a running command: it ends in its `DONE`, its operands fit, `WAITIDLE` stands only at
its head and only while the lines are at rest, and the lines of rule R41 are low after it. -/
structure QueueInv (s : State) (q : List MicroOp) : Prop where
  ends : queueEnds q = true
  fits : ∀ op ∈ q, operandFits s.cbufSize op = true
  waitsFirst : MicroOp.waitIdle ∉ q.tail
  waitsAtRest : q.head? = some .waitIdle → s.atRest
  comesToRest : ∀ l ∈ restLines, levelAfter l q (s.line l) = false

/-- The invariant of the machine, for a platform whose `RESET_PORT` has `CLK`, `LE` and `TRIG` low (R41): the buffer is
canonical and within `CBUF_SIZE`, the reply length fits it (R33), `WAITCNT` is within the limit (R37), and the sequencer
is at rest or on its way there. -/
structure State.Inv (s : State) : Prop where
  resetLow : ∀ l ∈ restLines, s.params.resetPort.getLsbD (s.params.pin l) = false
  canonical : Memory.wf s.cbuf = true
  inBuffer : ∀ c ∈ s.cbuf, c.1 < s.cbufSize
  replyFits : s.replyLen ≤ s.cbufSize
  waitBound : s.waitCnt ≤ s.params.epWaitLimit.getD 0
  idleAtRest : s.seq = .idle → s.atRest
  running : ∀ q, s.seq = .run q → QueueInv s q

/-! ### Relations between the state before and the state after -/

/-- Parameters, reset count, schedule and host replies are the same: what no command of the block touches. -/
structure SamePlatform (s t : State) : Prop where
  params : t.params = s.params
  resets : t.resets = s.resets
  schedule : t.schedule = s.schedule
  hostReplies : t.hostReplies = s.hostReplies
  epBusy : t.epBusy = s.epBusy

/-- The header bytes of the request latch are the same (R29). -/
structure SameHeader (s t : State) : Prop where
  reqType : t.reqType = s.reqType
  reqCode : t.reqCode = s.reqCode
  reqLen : t.reqLen = s.reqLen

/-- No sample of data-in was taken: `PORT_IN`, the DUT's answers and the count of draws are the same. -/
structure SameInput (s t : State) : Prop where
  portIn : t.portIn.toNat = s.portIn.toNat
  dutAnswers : t.dutAnswers = s.dutAnswers

/-- Every bit of `PORT_OUT` but the given lines is the same, the bits of no line among them (R104). -/
def samePortBut (ls : List Line) (s t : State) : Prop :=
  ∀ i, (∀ l ∈ ls, i ≠ s.params.pin l) → t.portBit i = s.portBit i

/-- Every byte of `CBUF` at the offset `n` or above is the same. -/
def sameBufferFrom (n : Nat) (s t : State) : Prop := ∀ a, n ≤ a → t.cbufRead a = s.cbufRead a

/-- The command that writes with a strobe: `SPI.WR` for `LE`, `TRIG.WR` for `TRIG` (R110). -/
def writeCommand : Strobe → Instr
  | .le => .spiWr
  | .trig => .trigWr

/-- Whether a command's program begins with `WAITIDLE`: every command but `UNKNOWN` (R143, R153). -/
def waitsForIdle : Instr → Bool
  | .unknown _ _ => false
  | _ => true

end Sys2Proof.Machine
end

