-- ==== Sys2Proof/Certificates/Slice0/Obligations.lean ====
section
/-! DEFINITION. The statements for the provers, from the numbered rules of the spec. -/

open Sys2Proof Sys2Proof.Machine

/-! ### Encoding (`30_encoding.md`) -/

/-- R80, R86, R141: decoding the encoded command word of a well-formed command gives the command back. -/
def Obligations.DecodeOfEncodeIsIdentity : Prop :=
  ∀ i : Instr, i.wellFormed = true → decode (encode i) = .instr i

/-- R86: every command word that decodes is the encoding of the command it decodes to, which is well-formed. -/
def Obligations.EncodeOfDecodeIsIdentity : Prop :=
  ∀ (cw : Half) (i : Instr), decode cw = .instr i → i.wellFormed = true ∧ encode i = cw

/-- R86: the fourteen rows take each command word of type `0x40` or `0xC0` exactly once, with the mnemonic of the command it
decodes to, and take no other command word. -/
def Obligations.OneOpcodeRowPerCommandWord : Prop :=
  ∀ cw : Half, ((opcodeTable.filter (fun r => r.takes cw)).map (fun r => r.mnemonic)) =
    (match decode cw with
     | .instr i => [i.mnemonic]
     | .rejected _ => [])

/-- R82: a command word is rejected exactly when its request-type byte is neither `0x40` nor `0xC0`, and by that byte. -/
def Obligations.RejectedExactlyOtherTypes : Prop :=
  ∀ (cw : Half) (e : DecodeError), decode cw = .rejected e ↔
    (cwType cw ≠ 0x40 ∧ cwType cw ≠ 0xC0 ∧ e = .notSelected (cwType cw))

/-- R86, R88: some words written out from the opcode map. -/
def Obligations.SampleWordsDecode : Prop :=
  decode 0x40DD = .instr .spiWr ∧ decode 0xC0DD = .instr .spiRd ∧ decode 0x40D9 = .instr .trigWr ∧
  decode 0x40DF = .instr (.statRd .download) ∧ decode 0xC0DF = .instr (.statRd .upload) ∧
  decode 0x40D8 = .instr .cepdWr ∧ decode 0xC0D9 = .instr (.unknown .upload 0xD9) ∧
  decode 0xC0D8 = .instr (.unknown .upload 0xD8) ∧ decode 0x4000 = .instr (.unknown .download 0x00) ∧
  decode 0x41DD = .rejected (.notSelected 0x41)

/-! ### The step -/

/-- R140, R36: with no other agent about to move, an idle block with a pending request that decodes to `i` runs `i`. That one
step runs the whole command, where R37 (a) gives a step that only starts its program, is the model's choice (log 1), as is
the schedule (log 3). -/
def Obligations.StepRunsDecodedRequest : Prop :=
  ∀ (s : State) (i : Instr), s.schedule = [] → s.seq = .idle → s.reqValid = true →
    decodeHeader s.reqType s.reqCode = .instr i → i.wellFormed = true ∧ step s = exec i s

/-- R82: a pending request whose type byte is neither `0x40` nor `0xC0` is refused by the acceptance step of `ENGINE` and,
with no other agent about to move, by the whole step; with either type it is accepted. The refusal by name, the request
staying pending, is the model's form of it (log 13), and the premise of an empty schedule is about the model's own field
(log 3). -/
def Obligations.OtherRequestTypesRefused : Prop :=
  ∀ s : State, s.seq = .idle → s.reqValid = true →
    if s.reqType = 0x40 ∨ s.reqType = 0xC0 then
      ∃ t, engineStep s = .next t
    else
      engineStep s = .refused (.notSelected s.reqType) ∧
        (s.schedule = [] → step s = .refused (.notSelected s.reqType))

/-- R36, R37: with no other agent about to move, a running block executes the head of its queue, and an idle block without
a request waits; a scheduled move is made first (the schedule is the model's own, log 3). -/
def Obligations.StepOtherwise : Prop :=
  ∀ s : State,
    (∀ q, s.schedule = [] → s.seq = .run q → step s = engineStep s) ∧
    (s.schedule = [] → s.seq = .idle → s.reqValid = false → step s = .next s) ∧
    (∀ m rest, s.schedule = m :: rest → step s = agentStep m { s with schedule := rest })

/-! ### The micro-operations (families 40, 42, 44) -/

/-- R101: `SET L` ORs `1 << PIN_L` into `PORT_OUT`, records `L+`, and changes nothing else; the line is high and the other
five lines are as before. -/
def Obligations.SetDrivesLineHigh : Prop :=
  ∀ (s : State) (l : Line) (q : List MicroOp), s.seq = .run (.set l :: q) →
    ∃ t, engineStep s = .next t ∧
      t = { s with
        portOut := s.portOut ||| (1#s.params.portW <<< s.params.pin l), trace := s.trace ++ [.up l], seq := .run q } ∧
      ∀ k, t.line k = if k = l then true else s.line k

/-- R102: `CLR L` ANDs the complement of `1 << PIN_L` into `PORT_OUT`, records `L-`, and changes nothing else; the line is
low and the other five lines are as before. -/
def Obligations.ClrDrivesLineLow : Prop :=
  ∀ (s : State) (l : Line) (q : List MicroOp), s.seq = .run (.clr l :: q) →
    ∃ t, engineStep s = .next t ∧
      t = { s with
        portOut := s.portOut &&& ~~~(1#s.params.portW <<< s.params.pin l), trace := s.trace ++ [.down l], seq := .run q } ∧
      ∀ k, t.line k = if k = l then false else s.line k

/-- R104: the bits of `PORT_OUT` that are not one of the six lines keep their value through every micro-op. -/
def Obligations.OtherPortBitsKept : Prop :=
  ∀ (s t : State) (q : List MicroOp), s.seq = .run q → engineStep s = .next t →
    ∀ i, (∀ l, i ≠ s.params.pin l) → t.portBit i = s.portBit i

/-- R105: `HOLD` is a step that records `H` and changes nothing else. -/
def Obligations.HoldChangesOnlyTrace : Prop :=
  ∀ (s : State) (q : List MicroOp), s.seq = .run (.hold :: q) →
    engineStep s = .next { s with trace := s.trace ++ [.hold], seq := .run q }

/-- R121: `ACLR` clears `ACC`, records `Z`, and changes nothing else. -/
def Obligations.AclrClearsAccumulator : Prop :=
  ∀ (s : State) (q : List MicroOp), s.seq = .run (.aclr :: q) →
    engineStep s = .next { s with acc := 0, trace := s.trace ++ [.clear], seq := .run q }

/-- R122, R28: `SHIN` reads data-in once, at the level the DUT drives at this instant, shifts it into `ACC` at bit 0 (bit 15
is lost), records `S(b)`, and changes nothing else but the DUT's own side. -/
def Obligations.ShinShiftsSampleIn : Prop :=
  ∀ (s : State) (q : List MicroOp), s.seq = .run (.shin :: q) →
    ∃ t, engineStep s = .next t ∧ t.readLine = s.answerAt 0 ∧
      (∀ j, t.acc.getLsbD j = if j = 0 then s.answerAt 0 else (decide (j < 16) && s.acc.getLsbD (j - 1))) ∧
      t = { s.dutDrive with acc := t.acc, trace := s.trace ++ [.sample (s.answerAt 0)], seq := .run q } ∧
      (∀ j, t.answerAt j = s.answerAt (j + 1)) ∧ ∀ l, t.line l = s.line l

/-- R123: `STL a` stores `ACC[7:0]` and `STH a` stores `ACC[15:8]` at offset `a`, each with its event; every other byte,
`ACC`, the lines and the reply length are as before. -/
def Obligations.StoresWriteAccumulatorBytes : Prop :=
  ∀ (s : State) (high : Bool) (a : Nat) (q : List MicroOp), a < s.cbufSize →
    s.seq = .run ((if high then .sth a else .stl a) :: q) →
    ∃ t v, engineStep s = .next t ∧ v = s.acc.extractLsb' (if high then 8 else 0) 8 ∧
      t = { s with cbuf := t.cbuf, trace := s.trace ++ [.store a v], seq := .run q } ∧
      ∀ b, t.cbufRead b = if b = a then v else s.cbufRead b

/-- R51, R124: a store at or beyond `CBUF_SIZE`, which the spec gives no meaning, faults. -/
def Obligations.StoreBeyondBufferFaults : Prop :=
  ∀ (s : State) (op : MicroOp) (a : Nat) (q : List MicroOp), op = .stl a ∨ op = .sth a → s.cbufSize ≤ a →
    s.seq = .run (op :: q) → engineStep s = .fault (.bufferOutOfRange a)

/-- R143: `WAITIDLE` proceeds with `I` when the endpoint is idle; when it is busy the state does not change without a limit,
and under a limit `L` a poll is counted below `L` and the command gives up at `L`. -/
def Obligations.WaitIdleProceedsOrHolds : Prop :=
  ∀ (s : State) (q : List MicroOp), s.seq = .run (.waitIdle :: q) →
    if s.epBusy = false then engineStep s = .next { s with trace := s.trace ++ [.idle], seq := .run q }
    else
      (s.params.epWaitLimit = none → engineStep s = .next s) ∧
      ∀ limit, s.params.epWaitLimit = some limit →
        (s.waitCnt < limit → engineStep s = .next { s with waitCnt := s.waitCnt + 1, trace := s.trace ++ [.poll] }) ∧
        (s.waitCnt = limit →
          engineStep s = .next { s with trace := s.trace ++ [.poll], seq := .run [.done .endpointTimeout] })

/-- R144: `STAGEW S` loads the word little-endian from `CBUF[0..3]` and the count from `CBUF[4]`, records `LW`, and expands:
to `DONE InvalidBitCount` when the strict parameter refuses the count, else to `uops_write` and `DONE OK`. The free bits
of positions 32 and above are counted as drawn (log 5); nothing else changes. -/
def Obligations.StageWriteLoadsAndExpands : Prop :=
  ∀ (s : State) (st : Strobe) (q : List MicroOp), s.seq = .run (.stageW st :: q) →
    ∃ (t : State) (w : Word) (n : Byte), engineStep s = .next t ∧
      w = s.cbufRead 3 ++ s.cbufRead 2 ++ s.cbufRead 1 ++ s.cbufRead 0 ∧ n = s.cbufRead 4 ∧
      t = { s with
        swWord := w, swCount := n, trace := s.trace ++ [.loadWord w n], seq := t.seq, draws := t.draws } ∧
      t.seq =
        (if s.params.strictBitCount = true ∧ (n.toNat = 0 ∨ 32 < n.toNat) then .run ([.done .invalidBitCount] ++ q)
         else .run (uopsWrite s.drawAt n.toNat w st ++ [.done .ok] ++ q))

/-- R145: `STAGEE` loads the code from `CBUF[0]`, records `LC`, and expands to `uops_enable` and a `DONE` whose status says
whether the code is one of the four; nothing else changes. -/
def Obligations.StageEnableLoadsAndExpands : Prop :=
  ∀ (s : State) (q : List MicroOp), s.seq = .run (.stageE :: q) →
    ∃ c st, c = s.cbufRead 0 ∧
      st = (if c = 0x04 ∨ c = 0x14 ∨ c = 0x0C ∨ c = 0x1C then Status.ok else Status.unknownEnableCode) ∧
      engineStep s = .next { s with
        enCode := c, trace := s.trace ++ [.loadCode c], seq := .run (uopsEnable c ++ [.done st] ++ q) }

/-- R146: `ARM n` sets the reply length, records `A(n)`, and changes nothing else. -/
def Obligations.ArmSetsReplyLength : Prop :=
  ∀ (s : State) (n : Nat) (q : List MicroOp), s.seq = .run (.arm n :: q) →
    engineStep s = .next { s with replyLen := n, trace := s.trace ++ [.arm n], seq := .run q }

/-- R147: `DONE s` sets the sequencer idle, records `D(s)`, and changes nothing else: no register holds the status. -/
def Obligations.DoneReturnsToIdle : Prop :=
  ∀ (s : State) (st : Status) (q : List MicroOp), s.seq = .run (.done st :: q) →
    engineStep s = .next { s with trace := s.trace ++ [.done st], seq := .idle }

/-- R140: with `SEQ = IDLE`, `REQ.valid = 1` and a type byte of `0x40` or `0xC0`, acceptance sets the sequencer to the program
of the decoded command, clears `REQ.valid` and `WAITCNT`, records `REQ`, and changes nothing else; otherwise an idle `ENGINE`
changes nothing. -/
def Obligations.AcceptanceStartsProgram : Prop :=
  ∀ s : State, s.seq = .idle →
    if s.reqValid = true ∧ (s.reqType = 0x40 ∨ s.reqType = 0xC0) then
      ∃ i, decodeHeader s.reqType s.reqCode = .instr i ∧ engineStep s = .next { s with
        seq := .run (program i), reqValid := false, waitCnt := 0, trace := s.trace ++ [.request s.reqType s.reqCode] }
    else ∀ t, engineStep s = .next t → t = s

/-! ### The write path (family 41) -/

/-- R117, R157 and the trace of R148, R150: a write that is not held and whose count is not refused. -/
def Obligations.WriteCommandResult : Prop :=
  ∀ (st : Strobe) (s : State), s.epBusy = false → s.refusesCount s.payloadCount = false →
    ∃ t, exec (writeCommand st) s = .next t ∧
      t.seq = .idle ∧ t.reqValid = false ∧ t.waitCnt = 0 ∧ t.swWord = s.payloadWord ∧ t.swCount = s.payloadCount ∧
      t.line (strobeLine st) = false ∧
      t.line .clk = (if s.payloadCount.toNat = 0 then s.line .clk else false) ∧
      t.line .data = (if s.payloadCount.toNat = 0 then s.line .data else s.payloadWord.getLsbD 0) ∧
      (∀ l, l ≠ strobeLine st → l ≠ .clk → l ≠ .data → t.line l = s.line l) ∧
      t.acc = s.acc ∧ (∀ a, t.cbufRead a = s.cbufRead a) ∧ t.replyLen = s.replyLen ∧
      t.trace = s.trace
        ++ [.request 0x40 (writeCommand st).codeByte, .idle, .loadWord s.payloadWord s.payloadCount]
        ++ writeTrace s.drawAt s.payloadCount.toNat s.payloadWord st ++ [.done .ok]

/-- R113: for counts 1 to 32 the line events of a write hold exactly `n` `CLK+` and `n` `CLK-`, alternating from `CLK+`; the
`DATA` event directly before the `i`-th `CLK+` leaves bit `n-1-i` of the word, and none stands inside a pulse. The levels are
taken at every `CLK+`, whatever `CLK` was before. -/
def Obligations.WriteClocksEveryBitOnce : Prop :=
  ∀ (st : Strobe) (s : State), s.epBusy = false → 1 ≤ s.payloadCount.toNat → s.payloadCount.toNat ≤ 32 →
    ∃ t ev, exec (writeCommand st) s = .next t ∧
      t.trace = s.trace
        ++ [.request 0x40 (writeCommand st).codeByte, .idle, .loadWord s.payloadWord s.payloadCount] ++ ev ++ [.done .ok] ∧
      ev.countP (· == .up .clk) = s.payloadCount.toNat ∧ ev.countP (· == .down .clk) = s.payloadCount.toNat ∧
      clockAfterData false false ev = true ∧
      shiftedOut false (s.line .data) ev = (List.range s.payloadCount.toNat).map
        (fun i => (s.payloadWord >>> (s.payloadCount.toNat - 1 - i)).getLsbD 0)

/-- R111, R115: for every count from 0 to 255 that is not refused the list has `5n + 5` micro-ops and the chip is clocked
exactly `n` times; the bits of positions 31 to 0 are those of the word, and nothing is said of the positions above. -/
def Obligations.CountGivesNumberOfPulses : Prop :=
  ∀ (st : Strobe) (s : State), s.epBusy = false → s.refusesCount s.payloadCount = false → s.line .clk = false →
    ∃ t ev, exec (writeCommand st) s = .next t ∧
      t.trace = s.trace
        ++ [.request 0x40 (writeCommand st).codeByte, .idle, .loadWord s.payloadWord s.payloadCount] ++ ev ++ [.done .ok] ∧
      ev.length = 5 * s.payloadCount.toNat + 5 ∧ ev.countP (· == .up .clk) = s.payloadCount.toNat ∧
      (shiftedOut false (s.line .data) ev).length = s.payloadCount.toNat ∧
      ∀ i p, i + p + 1 = s.payloadCount.toNat → p < 32 →
        (shiftedOut false (s.line .data) ev)[i]? = some (s.payloadWord.getLsbD p)

/-- R197: with `CLK` high on entry the first `SET CLK` makes no rising edge and the chip misses the first bit. -/
def Obligations.HighClockLosesFirstBit : Prop :=
  ∀ (st : Strobe) (s : State), s.epBusy = false → s.refusesCount s.payloadCount = false → s.line .clk = true →
    ∃ t ev, exec (writeCommand st) s = .next t ∧
      t.trace = s.trace
        ++ [.request 0x40 (writeCommand st).codeByte, .idle, .loadWord s.payloadWord s.payloadCount] ++ ev ++ [.done .ok] ∧
      shiftedOut true (s.line .data) ev = (writeBits s.drawAt s.payloadCount.toNat s.payloadWord).tail

/-- R144, R171: with the strict parameter a count of 0 or above 32 is refused after the staging: no line changes, not even
the strobe, and the command ends with `InvalidBitCount`. -/
def Obligations.StrictCountRefused : Prop :=
  ∀ (st : Strobe) (s : State), s.epBusy = false → s.params.strictBitCount = true →
    (s.payloadCount.toNat = 0 ∨ 32 < s.payloadCount.toNat) →
    ∃ t, exec (writeCommand st) s = .next t ∧ t.seq = .idle ∧ (∀ i, t.portBit i = s.portBit i) ∧
      t.swWord = s.payloadWord ∧ t.swCount = s.payloadCount ∧ t.replyLen = s.replyLen ∧ t.draws = s.draws ∧
      t.trace = s.trace ++ [.request 0x40 (writeCommand st).codeByte, .idle,
        .loadWord s.payloadWord s.payloadCount, .done .invalidBitCount]

/-! ### The read paths (families 42, 43) -/

/-- R126, R149: `SPI.RD` clocks eight samples into `CBUF[0]`, first sample in bit 7, stores `0x00` at offsets 1 and 2, arms a
reply of two, and leaves `CLK` low. -/
def Obligations.SpiReadResult : Prop :=
  ∀ s : State, s.epBusy = false →
    ∃ t v, exec .spiRd s = .next t ∧
      (∀ j, j < 8 → v.getLsbD (7 - j) = s.answerAt j) ∧
      t.cbufRead 0 = v ∧ t.cbufRead 1 = 0 ∧ t.cbufRead 2 = 0 ∧ t.acc = v.zeroExtend 16 ∧ t.replyLen = 2 ∧
      t.replyBytes = [v, 0] ∧ (∀ a, 3 ≤ a → t.cbufRead a = s.cbufRead a) ∧ t.seq = .idle ∧ t.reqValid = false ∧ t.waitCnt = 0 ∧
      (∀ l, t.line l = if l = .clk then false else s.line l) ∧ (∀ j, t.answerAt j = s.answerAt (8 + j)) ∧
      t.trace = s.trace ++ [.request 0xC0 0xDD, .idle, .clear] ++ pulsesTrace (s.answers 0 8)
        ++ [.store 0 v, .store 1 0, .store 2 0, .arm 2, .done .ok]

/-- R132, R135, R151: `STAT.RD`, in either direction, clocks two samples into `CBUF[0]` and eight into `CBUF[1]`, each first
sample most significant, arms a reply of two, and leaves `CLK` low. -/
def Obligations.StatusReadResult : Prop :=
  ∀ (d : Dir) (s : State), s.epBusy = false →
    ∃ t u v, exec (.statRd d) s = .next t ∧
      (∀ j, u.getLsbD j = if j = 1 then s.answerAt 0 else (decide (j = 0) && s.answerAt 1)) ∧
      (∀ j, j < 8 → v.getLsbD (7 - j) = s.answerAt (2 + j)) ∧
      t.cbufRead 0 = u ∧ t.cbufRead 1 = v ∧ t.acc = v.zeroExtend 16 ∧ t.replyLen = 2 ∧ t.replyBytes = [u, v] ∧
      (∀ a, 2 ≤ a → t.cbufRead a = s.cbufRead a) ∧ t.seq = .idle ∧ t.reqValid = false ∧ t.waitCnt = 0 ∧
      (∀ l, t.line l = if l = .clk then false else s.line l) ∧ (∀ j, t.answerAt j = s.answerAt (10 + j)) ∧
      t.trace = s.trace ++ [.request d.typeByte 0xDF, .idle, .clear] ++ pulsesTrace (s.answers 0 2)
        ++ [.store 0 u, .clear] ++ pulsesTrace (s.answers 2 8) ++ [.store 1 v, .arm 2, .done .ok]

/-- R53, R56, R124, R127: a word of `m` bits, `m` at most 16, read as word `j` (the form of rule R124, wider than what a
command uses): the samples enter `ACC` first sample most significant, and the bytes stored are low, high, high. -/
def Obligations.ReadWordStoresThreeBytes : Prop :=
  ∀ (m j : Nat) (q : List MicroOp) (s : State), m ≤ 16 → 3 * j + 2 < s.cbufSize → s.seq = .run (readWord m j ++ q) →
    ∃ t, engineSteps (5 * m + 4) s = .next t ∧ t.seq = .run q ∧
      (∀ i, t.acc.getLsbD i = (decide (i < m) && s.answerAt (m - 1 - i))) ∧
      t.cbufRead (3 * j) = t.acc.extractLsb' 0 8 ∧ t.cbufRead (3 * j + 1) = t.acc.extractLsb' 8 8 ∧
      t.cbufRead (3 * j + 2) = t.acc.extractLsb' 8 8 ∧
      ∀ a, a < 3 * j ∨ 3 * j + 2 < a → t.cbufRead a = s.cbufRead a

/-- R133: on the lines the status snapshot is ten identical clock pulses: nothing marks the boundary of the two fields. -/
def Obligations.StatusPulsesAreUniform : Prop :=
  ∀ (d : Dir) (s t : State), s.epBusy = false → exec (.statRd d) s = .next t →
    lineEvents t.trace = lineEvents s.trace
      ++ (List.replicate 10 [Event.up .clk, .hold, .down .clk, .hold]).flatten

/-- R146, R149: the host receives the byte read and then `0x00` after an `SPI.RD` it asked for. -/
def Obligations.HostReceivesReadByte : Prop :=
  ∀ s : State, s.epBusy = false → s.reqType = 0xC0 →
    ∃ t u v, exec .spiRd s = .next t ∧ usbcStep .takeReply t = .next u ∧
      (∀ j, j < 8 → v.getLsbD (7 - j) = s.answerAt j) ∧ u.hostReplies = s.hostReplies ++ [[v, 0]]

/-- R146, R183: taking the reply of an upload sends `CBUF[0 .. REPLY_LEN-1]` to the host and changes nothing else (when it may
be taken, and the list of replies, are the model's, log 9). -/
def Obligations.TakeReplySendsReplyBytes : Prop :=
  ∀ s : State, s.seq = .idle → s.reqValid = false → s.reqType = 0xC0 →
    usbcStep .takeReply s = .next { s with
      hostReplies := s.hostReplies ++ [(List.range s.replyLen).map (fun a => s.cbufRead a)] }

/-! ### The enable setter and the default (families 45, 44) -/

/-- R162, R163, R165: after `CEPD.WR` the lines are those of the code's row, by whole-byte comparison, both low for every
other byte, and the trace shows both driven low first. -/
def Obligations.EnableCommandResult : Prop :=
  ∀ s : State, s.epBusy = false →
    ∃ t c, exec .cepdWr s = .next t ∧ c = s.cbufRead 0 ∧ t.enCode = c ∧
      (t.line .ce, t.line .pdrf) =
        (if c = 0x04 then (false, false) else if c = 0x14 then (false, true) else if c = 0x0C then (true, false)
         else if c = 0x1C then (true, true) else (false, false)) ∧
      (∀ l, l ≠ .ce → l ≠ .pdrf → t.line l = s.line l) ∧ t.acc = s.acc ∧ (∀ a, t.cbufRead a = s.cbufRead a) ∧
      t.replyLen = s.replyLen ∧ t.seq = .idle ∧ t.reqValid = false ∧ t.waitCnt = 0 ∧
      t.trace = s.trace ++ [.request 0x40 0xD8, .idle, .loadCode c] ++ enableTrace c ++
        [.done (if c = 0x04 ∨ c = 0x14 ∨ c = 0x0C ∨ c = 0x1C then .ok else .unknownEnableCode)]

/-- R153: `UNKNOWN` arms a zero-length reply and ends, busy endpoint or not: nothing else changes. -/
def Obligations.UnknownCommandResult : Prop :=
  ∀ (d : Dir) (c : Byte) (s : State),
    exec (.unknown d c) s = .next { s with
      seq := .idle, reqValid := false, waitCnt := 0, replyLen := 0,
      trace := s.trace ++ [.request d.typeByte c, .arm 0, .done .unknownCommand] }

/-! ### The wait (R143, R203) -/

/-- R143, R203: with the endpoint busy and no limit every command but `UNKNOWN` is accepted and then held for ever: no step
of `ENGINE` changes the state, no line has changed, and no `DONE` is recorded. -/
def Obligations.BusyEndpointHangs : Prop :=
  ∀ (i : Instr) (s : State), waitsForIdle i = true → s.epBusy = true → s.params.epWaitLimit = none →
    ∃ t, exec i s = .next t ∧
      t = { s with
        seq := .run (program i), reqValid := false, waitCnt := 0,
        trace := s.trace ++ [.request i.typeByte i.codeByte] } ∧
      (∀ k, engineSteps k t = .next t) ∧ (s.schedule = [] → step t = .next t)

/-- R143: once `USBC` clears the flag, a held command runs on to what it would have done with an idle endpoint. -/
def Obligations.HeldCommandResumes : Prop :=
  ∀ (i : Instr) (s : State), waitsForIdle i = true → s.epBusy = true → s.params.epWaitLimit = none →
    ∃ t t' u k, exec i s = .next t ∧ usbcStep .clearBusy t = .next t' ∧ engineSteps k t' = .next u ∧ u.seq = .idle ∧
      exec i { s with epBusy := false } = .next u

/-- R143, R171: under a limit `L` a busy endpoint is polled `L + 1` times, then the command ends with `EndpointTimeout`:
`WAITCNT` is `L`, and nothing else has changed. -/
def Obligations.BusyEndpointTimesOut : Prop :=
  ∀ (i : Instr) (s : State) (limit : Nat), waitsForIdle i = true → s.epBusy = true →
    s.params.epWaitLimit = some limit →
    exec i s = .next { s with
      seq := .idle, reqValid := false, waitCnt := limit,
      trace := s.trace ++ [.request i.typeByte i.codeByte] ++ List.replicate (limit + 1) .poll
        ++ [.done .endpointTimeout] }

/-! ### Frames -/

/-- R148, R150: whatever a write command does (completes, is refused, is held or gives up), it writes only its strobe,
`DATA` and `CLK`, the staged word, the sequencer and the request's own bits. -/
def Obligations.WriteCommandFrame : Prop :=
  ∀ (st : Strobe) (s t : State), exec (writeCommand st) s = .next t →
    SamePlatform s t ∧ SameHeader s t ∧ SameInput s t ∧ t.acc = s.acc ∧ t.enCode = s.enCode ∧ t.replyLen = s.replyLen ∧
      sameBufferFrom 0 s t ∧ samePortBut [strobeLine st, .data, .clk] s t

/-- R149, R151: whatever a read command does, it writes only `CLK`, `ACC`, the reply length, and `CBUF` below offset 3
(`SPI.RD`) or 2 (`STAT.RD`). -/
def Obligations.ReadCommandFrame : Prop :=
  ∀ (i : Instr) (s t : State), i = .spiRd ∨ i = .statRd .download ∨ i = .statRd .upload → exec i s = .next t →
    SamePlatform s t ∧ SameHeader s t ∧ t.swWord = s.swWord ∧ t.swCount = s.swCount ∧ t.enCode = s.enCode ∧
      sameBufferFrom (if i = .spiRd then 3 else 2) s t ∧ samePortBut [.clk] s t ∧
      ∀ j, j ≠ s.params.pinDin → t.inBit j = s.inBit j

/-- R152: whatever `CEPD.WR` does, it writes only `CE`, `PDRF` and the enable code. -/
def Obligations.EnableCommandFrame : Prop :=
  ∀ s t : State, exec .cepdWr s = .next t →
    SamePlatform s t ∧ SameHeader s t ∧ SameInput s t ∧ t.acc = s.acc ∧ t.swWord = s.swWord ∧ t.swCount = s.swCount ∧
      t.replyLen = s.replyLen ∧ t.draws = s.draws ∧ sameBufferFrom 0 s t ∧ samePortBut [.ce, .pdrf] s t

/-! ### The whole machine -/

/-- R16, R36, R37: a whole command is a run of `ENGINE`'s steps, ending idle or in a state `ENGINE` cannot leave. -/
def Obligations.CommandIsEngineSteps : Prop :=
  ∀ (i : Instr) (s : State), s.seq = .idle → s.reqValid = true → decodeHeader s.reqType s.reqCode = .instr i →
    ∃ k t, exec i s = .next t ∧ engineSteps k s = .next t ∧ (t.seq = .idle ∨ ∀ m, engineSteps m t = .next t)

/-- R41, R33, R37: every step of the machine, whoever moves, keeps the invariant. -/
def Obligations.EveryStepKeepsInvariant : Prop :=
  ∀ s t : State, s.Inv → step s = .next t → t.Inv

/-- R42, R41: the invariant holds after reset, for every platform whose `RESET_PORT` has `CLK`, `LE` and `TRIG` low. -/
def Obligations.InvariantAtReset : Prop :=
  State.reset.Inv ∧
    ∀ p : Params, (∀ l ∈ restLines, p.resetPort.getLsbD (p.pin l) = false) → (State.resetWith p).Inv

/-- R41: after any step from a state of the invariant, an idle block has `CLK`, `LE` and `TRIG` low. -/
def Obligations.IdleLinesLow : Prop :=
  ∀ s t : State, s.Inv → step s = .next t → t.seq = .idle →
    t.line .clk = false ∧ t.line .le = false ∧ t.line .trig = false

/-- R37 (c), R51, R170: from a state of the invariant no step faults: `RUN([])` does not occur and no store leaves the
buffer. -/
def Obligations.NoStepFaults : Prop :=
  ∀ (s : State) (f : Fault), s.Inv → step s ≠ .fault f

/-- R22 to R27: a command drives only its own lines: another line keeps its level and has no event. -/
def Obligations.CommandsDriveOnlyTheirLines : Prop :=
  ∀ (i : Instr) (s t : State) (l : Line), exec i s = .next t → writesLine i l = false →
    t.line l = s.line l ∧ ∃ ev, t.trace = s.trace ++ ev ∧ ∀ e ∈ ev, drives l e = false

/-- R29: no command reads `REQ.len`. -/
def Obligations.RequestLengthNeverRead : Prop :=
  ∀ (i : Instr) (s : State) (n : Half),
    ∃ t, exec i s = .next t ∧ exec i { s with reqLen := n } = .next { t with reqLen := n }

/-- R32: what `ACC` held before a command is visible in nothing the command does. -/
def Obligations.OldAccumulatorInvisible : Prop :=
  ∀ (i : Instr) (s : State) (v : Half),
    ∃ t t', exec i s = .next t ∧ exec i { s with acc := v } = .next t' ∧ t' = { t with acc := t'.acc } ∧
      (t'.acc = t.acc ∨ (t.acc = s.acc ∧ t'.acc = v))

/-- R173: in the default configuration the only statuses are `OK`, `UnknownCommand` and `UnknownEnableCode`. -/
def Obligations.DefaultStatuses : Prop :=
  ∀ (i : Instr) (s t : State), s.params.strictBitCount = false → s.params.epWaitLimit = none → exec i s = .next t →
    ∃ ev, t.trace = s.trace ++ ev ∧
      ∀ st, Event.done st ∈ ev → st = .ok ∨ st = .unknownCommand ∨ st = .unknownEnableCode

/-- R9: no step changes a parameter (that they stand in the state is the model's choice, log 2). -/
def Obligations.ParametersNeverChange : Prop :=
  ∀ s t : State, step s = .next t → t.params = s.params

/-! ### Reset and the USB controller -/

/-- R42: the values the spec gives for the state after reset. -/
def Obligations.ResetValues : Prop :=
  ∀ p : Params, (State.resetWith p).seq = .idle ∧ (State.resetWith p).reqValid = false ∧
    (State.resetWith p).replyLen = 0 ∧ (State.resetWith p).waitCnt = 0 ∧ (State.resetWith p).portOut = p.resetPort ∧
    ∀ l, State.reset.line l = false

/-- R190, R192: a reset, also in the middle of a command, discards the queue, sets the port to `RESET_PORT` and clears
`REQ.valid`, `REPLY_LEN` and `WAITCNT`; the parameters stay. The rules say only that no `DONE` event is produced: that the
trace is kept and no event at all is recorded is the model's choice (log 16), as are the schedule (log 3) and the place of
the parameters (log 2). -/
def Obligations.ResetEventAtAnyTime : Prop :=
  ∀ (s : State) (rest : List Move), s.schedule = .reset :: rest →
    ∃ t, step s = .next t ∧ t.seq = .idle ∧ t.reqValid = false ∧ t.replyLen = 0 ∧ t.waitCnt = 0 ∧
      (∀ i, t.portBit i = s.params.resetPort.getLsbD i) ∧ t.params = s.params ∧ t.trace = s.trace ∧ t.schedule = rest

/-- R183, R177, R200: `USBC` presents a request only while the block is idle with none pending; the header is latched, the
payload written from offset 0 on, and every byte beyond the payload stays as it was; an overlapping request is refused. -/
def Obligations.RequestPresented : Prop :=
  ∀ (s : State) (type code : Byte) (len : Half) (payload : List Byte),
    payload.length ≤ len.toNat → payload.length ≤ s.cbufSize →
    if s.seq = .idle ∧ s.reqValid = false then
      ∃ t, usbcStep (.present type code len payload) s = .next t ∧
        t = { s with reqType := type, reqCode := code, reqLen := len, reqValid := true, cbuf := t.cbuf } ∧
        ∀ a, t.cbufRead a = (payload[a]?).getD (s.cbufRead a)
    else usbcStep (.present type code len payload) s = .refused .requestOverlap

/-- R62, R183: from the step at which `WAITIDLE` passes to the `DONE` of the same command, `USBC` has no move that presents
a request, writes a byte, sets `EP_BUSY`, or reads `CBUF` and `REPLY_LEN`, which it does only by taking a reply. The names of
the refusals are the model's (logs 9 and 14). -/
def Obligations.EngineOwnsBufferUntilDone : Prop :=
  ∀ (i : Instr) (s t u : State) (k : Nat), waitsForIdle i = true → s.seq = .run (program i) → s.epBusy = false →
    engineStep s = .next t → engineSteps k t = .next u → (∀ j v, j ≤ k → engineSteps j t = .next v → v.seq ≠ .idle) →
    usbcStep .setBusy u = .refused .bufferOwned ∧ usbcStep .takeReply u = .refused .noReplyDue ∧
    (∀ a v, usbcStep (.writeByte a v) u = .refused .bufferOwned) ∧
    (∀ type code len payload, usbcStep (.present type code len payload) u = .refused .requestOverlap)

/-- R183, R34: `USBC` may clear `EP_BUSY` always and set it whenever `ENGINE` is not between a passed `WAITIDLE` and `DONE`:
while the block is idle, while a command stands at its `WAITIDLE`, and in a command that passes none (`UNKNOWN`, or one that
has given up the wait). Nothing else changes. -/
def Obligations.UsbcDrivesBusyFlag : Prop :=
  ∀ s : State, usbcStep .clearBusy s = .next { s with epBusy := false } ∧
    (s.seq = .idle ∨ (∃ q, s.seq = .run (.waitIdle :: q)) ∨ s.seq = .run [.arm 0, .done .unknownCommand] ∨
        s.seq = .run [.done .unknownCommand] ∨ s.seq = .run [.done .endpointTimeout] →
      usbcStep .setBusy s = .next { s with epBusy := true })

/-- R16, R40 (a), R183: `USBC` may write any byte of the buffer of an idle block while `EP_BUSY` is set or while it prepares a
request. With `EP_BUSY` set while a command runs that has passed no wait, it may on a platform with `lateFill` and may not
on any other: the rules differ there, and the parameter is the model's (log 18). The byte reads as written, every other as
before, and nothing else changes. That a byte written in preparation need not lie below `REQ.len` is the model's (log 14). -/
def Obligations.UsbcWritesPayloadByte : Prop :=
  ∀ (s : State) (a : Nat) (v : Byte), a < s.cbufSize →
    (s.seq = .idle ∧ (s.reqValid = false ∨ s.epBusy = true)) ∨
      (s.epBusy = true ∧ ((∃ q, s.seq = .run (.waitIdle :: q)) ∨ s.seq = .run [.arm 0, .done .unknownCommand] ∨
        s.seq = .run [.done .unknownCommand] ∨ s.seq = .run [.done .endpointTimeout])) →
    if s.seq = .idle ∨ s.params.lateFill = true then
      ∃ t, usbcStep (.writeByte a v) s = .next t ∧ t = { s with cbuf := t.cbuf } ∧
        ∀ b, t.cbufRead b = if b = a then v else s.cbufRead b
    else usbcStep (.writeByte a v) s = .refused .bufferOwned

/-- R16: whatever `USBC` does, it writes no bit of `PORT_OUT`, neither `SW` nor `EN` nor `ACC` nor `REPLY_LEN`, and leaves the
sequencer, `WAITCNT`, the DUT's side and the trace alone; and from acceptance to `DONE` it writes no byte of `CBUF`, but on a
platform with `lateFill`, the model's own parameter (log 18), under `EP_BUSY`. -/
def Obligations.UsbcWritesNothingOfEngine : Prop :=
  ∀ (u : UsbcMove) (s t : State), usbcStep u s = .next t →
    (∀ i, t.portBit i = s.portBit i) ∧ (∀ i, t.inBit i = s.inBit i) ∧ t.swWord = s.swWord ∧ t.swCount = s.swCount ∧
      t.enCode = s.enCode ∧ t.acc = s.acc ∧ t.replyLen = s.replyLen ∧ t.seq = s.seq ∧ t.waitCnt = s.waitCnt ∧
      t.dutAnswers = s.dutAnswers ∧ t.trace = s.trace ∧
      (s.seq ≠ .idle → s.params.lateFill = false ∨ s.epBusy = false → ∀ a, t.cbufRead a = s.cbufRead a)
end

