-- ==== Sys2Proof/Laws/State.lean ====
section
/-! SUPPORT. One lemma for each field of `State` under each update of the model, true by `rfl`, so that no later proof
unfolds a record update. The two port registers are read through `line`, `portBit` and `inBit`, whose types do not depend
on the state. -/

namespace Sys2Proof.Machine

variable (s : State)


/-! ### `raiseLine` -/

@[simp] theorem State.raiseLine_params (l : Line) : (s.raiseLine l).params = s.params := rfl
@[simp] theorem State.raiseLine_reqType (l : Line) : (s.raiseLine l).reqType = s.reqType := rfl
@[simp] theorem State.raiseLine_reqCode (l : Line) : (s.raiseLine l).reqCode = s.reqCode := rfl
@[simp] theorem State.raiseLine_reqLen (l : Line) : (s.raiseLine l).reqLen = s.reqLen := rfl
@[simp] theorem State.raiseLine_reqValid (l : Line) : (s.raiseLine l).reqValid = s.reqValid := rfl
@[simp] theorem State.raiseLine_swWord (l : Line) : (s.raiseLine l).swWord = s.swWord := rfl
@[simp] theorem State.raiseLine_swCount (l : Line) : (s.raiseLine l).swCount = s.swCount := rfl
@[simp] theorem State.raiseLine_enCode (l : Line) : (s.raiseLine l).enCode = s.enCode := rfl
@[simp] theorem State.raiseLine_acc (l : Line) : (s.raiseLine l).acc = s.acc := rfl
@[simp] theorem State.raiseLine_replyLen (l : Line) : (s.raiseLine l).replyLen = s.replyLen := rfl
@[simp] theorem State.raiseLine_epBusy (l : Line) : (s.raiseLine l).epBusy = s.epBusy := rfl
@[simp] theorem State.raiseLine_cbuf (l : Line) : (s.raiseLine l).cbuf = s.cbuf := rfl
@[simp] theorem State.raiseLine_seq (l : Line) : (s.raiseLine l).seq = s.seq := rfl
@[simp] theorem State.raiseLine_waitCnt (l : Line) : (s.raiseLine l).waitCnt = s.waitCnt := rfl
@[simp] theorem State.raiseLine_trace (l : Line) : (s.raiseLine l).trace = s.trace := rfl
@[simp] theorem State.raiseLine_dutAnswers (l : Line) : (s.raiseLine l).dutAnswers = s.dutAnswers := rfl
@[simp] theorem State.raiseLine_draws (l : Line) : (s.raiseLine l).draws = s.draws := rfl
@[simp] theorem State.raiseLine_resets (l : Line) : (s.raiseLine l).resets = s.resets := rfl
@[simp] theorem State.raiseLine_schedule (l : Line) : (s.raiseLine l).schedule = s.schedule := rfl
@[simp] theorem State.raiseLine_hostReplies (l : Line) : (s.raiseLine l).hostReplies = s.hostReplies := rfl
@[simp] theorem State.raiseLine_inBit (l : Line) (i : Nat) : (s.raiseLine l).inBit i = s.inBit i := rfl
@[simp] theorem State.raiseLine_readLine (l : Line) : (s.raiseLine l).readLine = s.readLine := rfl
@[simp] theorem State.raiseLine_answerAt (l : Line) (j : Nat) : (s.raiseLine l).answerAt j = s.answerAt j := rfl
@[simp] theorem State.raiseLine_cbufSize (l : Line) : (s.raiseLine l).cbufSize = s.cbufSize := rfl
@[simp] theorem State.raiseLine_cbufRead (l : Line) (i : Nat) : (s.raiseLine l).cbufRead i = s.cbufRead i := rfl

/-! ### `lowerLine` -/

@[simp] theorem State.lowerLine_params (l : Line) : (s.lowerLine l).params = s.params := rfl
@[simp] theorem State.lowerLine_reqType (l : Line) : (s.lowerLine l).reqType = s.reqType := rfl
@[simp] theorem State.lowerLine_reqCode (l : Line) : (s.lowerLine l).reqCode = s.reqCode := rfl
@[simp] theorem State.lowerLine_reqLen (l : Line) : (s.lowerLine l).reqLen = s.reqLen := rfl
@[simp] theorem State.lowerLine_reqValid (l : Line) : (s.lowerLine l).reqValid = s.reqValid := rfl
@[simp] theorem State.lowerLine_swWord (l : Line) : (s.lowerLine l).swWord = s.swWord := rfl
@[simp] theorem State.lowerLine_swCount (l : Line) : (s.lowerLine l).swCount = s.swCount := rfl
@[simp] theorem State.lowerLine_enCode (l : Line) : (s.lowerLine l).enCode = s.enCode := rfl
@[simp] theorem State.lowerLine_acc (l : Line) : (s.lowerLine l).acc = s.acc := rfl
@[simp] theorem State.lowerLine_replyLen (l : Line) : (s.lowerLine l).replyLen = s.replyLen := rfl
@[simp] theorem State.lowerLine_epBusy (l : Line) : (s.lowerLine l).epBusy = s.epBusy := rfl
@[simp] theorem State.lowerLine_cbuf (l : Line) : (s.lowerLine l).cbuf = s.cbuf := rfl
@[simp] theorem State.lowerLine_seq (l : Line) : (s.lowerLine l).seq = s.seq := rfl
@[simp] theorem State.lowerLine_waitCnt (l : Line) : (s.lowerLine l).waitCnt = s.waitCnt := rfl
@[simp] theorem State.lowerLine_trace (l : Line) : (s.lowerLine l).trace = s.trace := rfl
@[simp] theorem State.lowerLine_dutAnswers (l : Line) : (s.lowerLine l).dutAnswers = s.dutAnswers := rfl
@[simp] theorem State.lowerLine_draws (l : Line) : (s.lowerLine l).draws = s.draws := rfl
@[simp] theorem State.lowerLine_resets (l : Line) : (s.lowerLine l).resets = s.resets := rfl
@[simp] theorem State.lowerLine_schedule (l : Line) : (s.lowerLine l).schedule = s.schedule := rfl
@[simp] theorem State.lowerLine_hostReplies (l : Line) : (s.lowerLine l).hostReplies = s.hostReplies := rfl
@[simp] theorem State.lowerLine_inBit (l : Line) (i : Nat) : (s.lowerLine l).inBit i = s.inBit i := rfl
@[simp] theorem State.lowerLine_readLine (l : Line) : (s.lowerLine l).readLine = s.readLine := rfl
@[simp] theorem State.lowerLine_answerAt (l : Line) (j : Nat) : (s.lowerLine l).answerAt j = s.answerAt j := rfl
@[simp] theorem State.lowerLine_cbufSize (l : Line) : (s.lowerLine l).cbufSize = s.cbufSize := rfl
@[simp] theorem State.lowerLine_cbufRead (l : Line) (i : Nat) : (s.lowerLine l).cbufRead i = s.cbufRead i := rfl

/-! ### `cbufWrite` -/

@[simp] theorem State.cbufWrite_params (a : Nat) (v : Byte) : (s.cbufWrite a v).params = s.params := rfl
@[simp] theorem State.cbufWrite_reqType (a : Nat) (v : Byte) : (s.cbufWrite a v).reqType = s.reqType := rfl
@[simp] theorem State.cbufWrite_reqCode (a : Nat) (v : Byte) : (s.cbufWrite a v).reqCode = s.reqCode := rfl
@[simp] theorem State.cbufWrite_reqLen (a : Nat) (v : Byte) : (s.cbufWrite a v).reqLen = s.reqLen := rfl
@[simp] theorem State.cbufWrite_reqValid (a : Nat) (v : Byte) : (s.cbufWrite a v).reqValid = s.reqValid := rfl
@[simp] theorem State.cbufWrite_swWord (a : Nat) (v : Byte) : (s.cbufWrite a v).swWord = s.swWord := rfl
@[simp] theorem State.cbufWrite_swCount (a : Nat) (v : Byte) : (s.cbufWrite a v).swCount = s.swCount := rfl
@[simp] theorem State.cbufWrite_enCode (a : Nat) (v : Byte) : (s.cbufWrite a v).enCode = s.enCode := rfl
@[simp] theorem State.cbufWrite_acc (a : Nat) (v : Byte) : (s.cbufWrite a v).acc = s.acc := rfl
@[simp] theorem State.cbufWrite_replyLen (a : Nat) (v : Byte) : (s.cbufWrite a v).replyLen = s.replyLen := rfl
@[simp] theorem State.cbufWrite_epBusy (a : Nat) (v : Byte) : (s.cbufWrite a v).epBusy = s.epBusy := rfl
@[simp] theorem State.cbufWrite_cbuf (a : Nat) (v : Byte) : (s.cbufWrite a v).cbuf = Memory.write s.cbuf a v := rfl
@[simp] theorem State.cbufWrite_seq (a : Nat) (v : Byte) : (s.cbufWrite a v).seq = s.seq := rfl
@[simp] theorem State.cbufWrite_waitCnt (a : Nat) (v : Byte) : (s.cbufWrite a v).waitCnt = s.waitCnt := rfl
@[simp] theorem State.cbufWrite_trace (a : Nat) (v : Byte) : (s.cbufWrite a v).trace = s.trace := rfl
@[simp] theorem State.cbufWrite_dutAnswers (a : Nat) (v : Byte) : (s.cbufWrite a v).dutAnswers = s.dutAnswers := rfl
@[simp] theorem State.cbufWrite_draws (a : Nat) (v : Byte) : (s.cbufWrite a v).draws = s.draws := rfl
@[simp] theorem State.cbufWrite_resets (a : Nat) (v : Byte) : (s.cbufWrite a v).resets = s.resets := rfl
@[simp] theorem State.cbufWrite_schedule (a : Nat) (v : Byte) : (s.cbufWrite a v).schedule = s.schedule := rfl
@[simp] theorem State.cbufWrite_hostReplies (a : Nat) (v : Byte) : (s.cbufWrite a v).hostReplies = s.hostReplies := rfl
@[simp] theorem State.cbufWrite_line (a : Nat) (v : Byte) (k : Line) : (s.cbufWrite a v).line k = s.line k := rfl
@[simp] theorem State.cbufWrite_portBit (a : Nat) (v : Byte) (i : Nat) : (s.cbufWrite a v).portBit i = s.portBit i := rfl
@[simp] theorem State.cbufWrite_inBit (a : Nat) (v : Byte) (i : Nat) : (s.cbufWrite a v).inBit i = s.inBit i := rfl
@[simp] theorem State.cbufWrite_readLine (a : Nat) (v : Byte) : (s.cbufWrite a v).readLine = s.readLine := rfl
@[simp] theorem State.cbufWrite_answerAt (a : Nat) (v : Byte) (j : Nat) : (s.cbufWrite a v).answerAt j = s.answerAt j := rfl
@[simp] theorem State.cbufWrite_cbufSize (a : Nat) (v : Byte) : (s.cbufWrite a v).cbufSize = s.cbufSize := rfl

/-! ### `dutDrive` -/

@[simp] theorem State.dutDrive_params : (s.dutDrive).params = s.params := rfl
@[simp] theorem State.dutDrive_reqType : (s.dutDrive).reqType = s.reqType := rfl
@[simp] theorem State.dutDrive_reqCode : (s.dutDrive).reqCode = s.reqCode := rfl
@[simp] theorem State.dutDrive_reqLen : (s.dutDrive).reqLen = s.reqLen := rfl
@[simp] theorem State.dutDrive_reqValid : (s.dutDrive).reqValid = s.reqValid := rfl
@[simp] theorem State.dutDrive_swWord : (s.dutDrive).swWord = s.swWord := rfl
@[simp] theorem State.dutDrive_swCount : (s.dutDrive).swCount = s.swCount := rfl
@[simp] theorem State.dutDrive_enCode : (s.dutDrive).enCode = s.enCode := rfl
@[simp] theorem State.dutDrive_acc : (s.dutDrive).acc = s.acc := rfl
@[simp] theorem State.dutDrive_replyLen : (s.dutDrive).replyLen = s.replyLen := rfl
@[simp] theorem State.dutDrive_epBusy : (s.dutDrive).epBusy = s.epBusy := rfl
@[simp] theorem State.dutDrive_cbuf : (s.dutDrive).cbuf = s.cbuf := rfl
@[simp] theorem State.dutDrive_seq : (s.dutDrive).seq = s.seq := rfl
@[simp] theorem State.dutDrive_waitCnt : (s.dutDrive).waitCnt = s.waitCnt := rfl
@[simp] theorem State.dutDrive_trace : (s.dutDrive).trace = s.trace := rfl
@[simp] theorem State.dutDrive_dutAnswers : (s.dutDrive).dutAnswers = s.dutAnswers.tail := rfl
@[simp] theorem State.dutDrive_draws : (s.dutDrive).draws = if s.dutAnswers.isEmpty then s.draws + 1 else s.draws := rfl
@[simp] theorem State.dutDrive_resets : (s.dutDrive).resets = s.resets := rfl
@[simp] theorem State.dutDrive_schedule : (s.dutDrive).schedule = s.schedule := rfl
@[simp] theorem State.dutDrive_hostReplies : (s.dutDrive).hostReplies = s.hostReplies := rfl
@[simp] theorem State.dutDrive_line (k : Line) : (s.dutDrive).line k = s.line k := rfl
@[simp] theorem State.dutDrive_portBit (i : Nat) : (s.dutDrive).portBit i = s.portBit i := rfl
@[simp] theorem State.dutDrive_cbufSize : (s.dutDrive).cbufSize = s.cbufSize := rfl
@[simp] theorem State.dutDrive_cbufRead (i : Nat) : (s.dutDrive).cbufRead i = s.cbufRead i := rfl

/-! ### `emit` -/

@[simp] theorem State.emit_params (e : Event) : (s.emit e).params = s.params := rfl
@[simp] theorem State.emit_reqType (e : Event) : (s.emit e).reqType = s.reqType := rfl
@[simp] theorem State.emit_reqCode (e : Event) : (s.emit e).reqCode = s.reqCode := rfl
@[simp] theorem State.emit_reqLen (e : Event) : (s.emit e).reqLen = s.reqLen := rfl
@[simp] theorem State.emit_reqValid (e : Event) : (s.emit e).reqValid = s.reqValid := rfl
@[simp] theorem State.emit_swWord (e : Event) : (s.emit e).swWord = s.swWord := rfl
@[simp] theorem State.emit_swCount (e : Event) : (s.emit e).swCount = s.swCount := rfl
@[simp] theorem State.emit_enCode (e : Event) : (s.emit e).enCode = s.enCode := rfl
@[simp] theorem State.emit_acc (e : Event) : (s.emit e).acc = s.acc := rfl
@[simp] theorem State.emit_replyLen (e : Event) : (s.emit e).replyLen = s.replyLen := rfl
@[simp] theorem State.emit_epBusy (e : Event) : (s.emit e).epBusy = s.epBusy := rfl
@[simp] theorem State.emit_cbuf (e : Event) : (s.emit e).cbuf = s.cbuf := rfl
@[simp] theorem State.emit_seq (e : Event) : (s.emit e).seq = s.seq := rfl
@[simp] theorem State.emit_waitCnt (e : Event) : (s.emit e).waitCnt = s.waitCnt := rfl
@[simp] theorem State.emit_trace (e : Event) : (s.emit e).trace = s.trace ++ [e] := rfl
@[simp] theorem State.emit_dutAnswers (e : Event) : (s.emit e).dutAnswers = s.dutAnswers := rfl
@[simp] theorem State.emit_draws (e : Event) : (s.emit e).draws = s.draws := rfl
@[simp] theorem State.emit_resets (e : Event) : (s.emit e).resets = s.resets := rfl
@[simp] theorem State.emit_schedule (e : Event) : (s.emit e).schedule = s.schedule := rfl
@[simp] theorem State.emit_hostReplies (e : Event) : (s.emit e).hostReplies = s.hostReplies := rfl
@[simp] theorem State.emit_line (e : Event) (k : Line) : (s.emit e).line k = s.line k := rfl
@[simp] theorem State.emit_portBit (e : Event) (i : Nat) : (s.emit e).portBit i = s.portBit i := rfl
@[simp] theorem State.emit_inBit (e : Event) (i : Nat) : (s.emit e).inBit i = s.inBit i := rfl
@[simp] theorem State.emit_readLine (e : Event) : (s.emit e).readLine = s.readLine := rfl
@[simp] theorem State.emit_answerAt (e : Event) (j : Nat) : (s.emit e).answerAt j = s.answerAt j := rfl
@[simp] theorem State.emit_cbufSize (e : Event) : (s.emit e).cbufSize = s.cbufSize := rfl
@[simp] theorem State.emit_cbufRead (e : Event) (i : Nat) : (s.emit e).cbufRead i = s.cbufRead i := rfl

/-! ### `resume` -/

@[simp] theorem State.resume_params (q : List MicroOp) : (s.resume q).params = s.params := rfl
@[simp] theorem State.resume_reqType (q : List MicroOp) : (s.resume q).reqType = s.reqType := rfl
@[simp] theorem State.resume_reqCode (q : List MicroOp) : (s.resume q).reqCode = s.reqCode := rfl
@[simp] theorem State.resume_reqLen (q : List MicroOp) : (s.resume q).reqLen = s.reqLen := rfl
@[simp] theorem State.resume_reqValid (q : List MicroOp) : (s.resume q).reqValid = s.reqValid := rfl
@[simp] theorem State.resume_swWord (q : List MicroOp) : (s.resume q).swWord = s.swWord := rfl
@[simp] theorem State.resume_swCount (q : List MicroOp) : (s.resume q).swCount = s.swCount := rfl
@[simp] theorem State.resume_enCode (q : List MicroOp) : (s.resume q).enCode = s.enCode := rfl
@[simp] theorem State.resume_acc (q : List MicroOp) : (s.resume q).acc = s.acc := rfl
@[simp] theorem State.resume_replyLen (q : List MicroOp) : (s.resume q).replyLen = s.replyLen := rfl
@[simp] theorem State.resume_epBusy (q : List MicroOp) : (s.resume q).epBusy = s.epBusy := rfl
@[simp] theorem State.resume_cbuf (q : List MicroOp) : (s.resume q).cbuf = s.cbuf := rfl
@[simp] theorem State.resume_seq (q : List MicroOp) : (s.resume q).seq = .run q := rfl
@[simp] theorem State.resume_waitCnt (q : List MicroOp) : (s.resume q).waitCnt = s.waitCnt := rfl
@[simp] theorem State.resume_trace (q : List MicroOp) : (s.resume q).trace = s.trace := rfl
@[simp] theorem State.resume_dutAnswers (q : List MicroOp) : (s.resume q).dutAnswers = s.dutAnswers := rfl
@[simp] theorem State.resume_draws (q : List MicroOp) : (s.resume q).draws = s.draws := rfl
@[simp] theorem State.resume_resets (q : List MicroOp) : (s.resume q).resets = s.resets := rfl
@[simp] theorem State.resume_schedule (q : List MicroOp) : (s.resume q).schedule = s.schedule := rfl
@[simp] theorem State.resume_hostReplies (q : List MicroOp) : (s.resume q).hostReplies = s.hostReplies := rfl
@[simp] theorem State.resume_line (q : List MicroOp) (k : Line) : (s.resume q).line k = s.line k := rfl
@[simp] theorem State.resume_portBit (q : List MicroOp) (i : Nat) : (s.resume q).portBit i = s.portBit i := rfl
@[simp] theorem State.resume_inBit (q : List MicroOp) (i : Nat) : (s.resume q).inBit i = s.inBit i := rfl
@[simp] theorem State.resume_readLine (q : List MicroOp) : (s.resume q).readLine = s.readLine := rfl
@[simp] theorem State.resume_answerAt (q : List MicroOp) (j : Nat) : (s.resume q).answerAt j = s.answerAt j := rfl
@[simp] theorem State.resume_cbufSize (q : List MicroOp) : (s.resume q).cbufSize = s.cbufSize := rfl
@[simp] theorem State.resume_cbufRead (q : List MicroOp) (i : Nat) : (s.resume q).cbufRead i = s.cbufRead i := rfl

/-! ### `accept` -/

@[simp] theorem State.accept_params (ty c : Byte) (q : List MicroOp) : (s.accept ty c q).params = s.params := rfl
@[simp] theorem State.accept_reqType (ty c : Byte) (q : List MicroOp) : (s.accept ty c q).reqType = s.reqType := rfl
@[simp] theorem State.accept_reqCode (ty c : Byte) (q : List MicroOp) : (s.accept ty c q).reqCode = s.reqCode := rfl
@[simp] theorem State.accept_reqLen (ty c : Byte) (q : List MicroOp) : (s.accept ty c q).reqLen = s.reqLen := rfl
@[simp] theorem State.accept_reqValid (ty c : Byte) (q : List MicroOp) : (s.accept ty c q).reqValid = false := rfl
@[simp] theorem State.accept_swWord (ty c : Byte) (q : List MicroOp) : (s.accept ty c q).swWord = s.swWord := rfl
@[simp] theorem State.accept_swCount (ty c : Byte) (q : List MicroOp) : (s.accept ty c q).swCount = s.swCount := rfl
@[simp] theorem State.accept_enCode (ty c : Byte) (q : List MicroOp) : (s.accept ty c q).enCode = s.enCode := rfl
@[simp] theorem State.accept_acc (ty c : Byte) (q : List MicroOp) : (s.accept ty c q).acc = s.acc := rfl
@[simp] theorem State.accept_replyLen (ty c : Byte) (q : List MicroOp) : (s.accept ty c q).replyLen = s.replyLen := rfl
@[simp] theorem State.accept_epBusy (ty c : Byte) (q : List MicroOp) : (s.accept ty c q).epBusy = s.epBusy := rfl
@[simp] theorem State.accept_cbuf (ty c : Byte) (q : List MicroOp) : (s.accept ty c q).cbuf = s.cbuf := rfl
@[simp] theorem State.accept_seq (ty c : Byte) (q : List MicroOp) : (s.accept ty c q).seq = .run q := rfl
@[simp] theorem State.accept_waitCnt (ty c : Byte) (q : List MicroOp) : (s.accept ty c q).waitCnt = 0 := rfl
@[simp] theorem State.accept_trace (ty c : Byte) (q : List MicroOp) : (s.accept ty c q).trace = s.trace ++ [.request ty c] := rfl
@[simp] theorem State.accept_dutAnswers (ty c : Byte) (q : List MicroOp) : (s.accept ty c q).dutAnswers = s.dutAnswers := rfl
@[simp] theorem State.accept_draws (ty c : Byte) (q : List MicroOp) : (s.accept ty c q).draws = s.draws := rfl
@[simp] theorem State.accept_resets (ty c : Byte) (q : List MicroOp) : (s.accept ty c q).resets = s.resets := rfl
@[simp] theorem State.accept_schedule (ty c : Byte) (q : List MicroOp) : (s.accept ty c q).schedule = s.schedule := rfl
@[simp] theorem State.accept_hostReplies (ty c : Byte) (q : List MicroOp) : (s.accept ty c q).hostReplies = s.hostReplies := rfl
@[simp] theorem State.accept_line (ty c : Byte) (q : List MicroOp) (k : Line) : (s.accept ty c q).line k = s.line k := rfl
@[simp] theorem State.accept_portBit (ty c : Byte) (q : List MicroOp) (i : Nat) : (s.accept ty c q).portBit i = s.portBit i := rfl
@[simp] theorem State.accept_inBit (ty c : Byte) (q : List MicroOp) (i : Nat) : (s.accept ty c q).inBit i = s.inBit i := rfl
@[simp] theorem State.accept_readLine (ty c : Byte) (q : List MicroOp) : (s.accept ty c q).readLine = s.readLine := rfl
@[simp] theorem State.accept_answerAt (ty c : Byte) (q : List MicroOp) (j : Nat) : (s.accept ty c q).answerAt j = s.answerAt j := rfl
@[simp] theorem State.accept_cbufSize (ty c : Byte) (q : List MicroOp) : (s.accept ty c q).cbufSize = s.cbufSize := rfl
@[simp] theorem State.accept_cbufRead (ty c : Byte) (q : List MicroOp) (i : Nat) : (s.accept ty c q).cbufRead i = s.cbufRead i := rfl

/-! ### `finish` -/

@[simp] theorem State.finish_params (st : Status) : (s.finish st).params = s.params := rfl
@[simp] theorem State.finish_reqType (st : Status) : (s.finish st).reqType = s.reqType := rfl
@[simp] theorem State.finish_reqCode (st : Status) : (s.finish st).reqCode = s.reqCode := rfl
@[simp] theorem State.finish_reqLen (st : Status) : (s.finish st).reqLen = s.reqLen := rfl
@[simp] theorem State.finish_reqValid (st : Status) : (s.finish st).reqValid = s.reqValid := rfl
@[simp] theorem State.finish_swWord (st : Status) : (s.finish st).swWord = s.swWord := rfl
@[simp] theorem State.finish_swCount (st : Status) : (s.finish st).swCount = s.swCount := rfl
@[simp] theorem State.finish_enCode (st : Status) : (s.finish st).enCode = s.enCode := rfl
@[simp] theorem State.finish_acc (st : Status) : (s.finish st).acc = s.acc := rfl
@[simp] theorem State.finish_replyLen (st : Status) : (s.finish st).replyLen = s.replyLen := rfl
@[simp] theorem State.finish_epBusy (st : Status) : (s.finish st).epBusy = s.epBusy := rfl
@[simp] theorem State.finish_cbuf (st : Status) : (s.finish st).cbuf = s.cbuf := rfl
@[simp] theorem State.finish_seq (st : Status) : (s.finish st).seq = .idle := rfl
@[simp] theorem State.finish_waitCnt (st : Status) : (s.finish st).waitCnt = s.waitCnt := rfl
@[simp] theorem State.finish_trace (st : Status) : (s.finish st).trace = s.trace ++ [.done st] := rfl
@[simp] theorem State.finish_dutAnswers (st : Status) : (s.finish st).dutAnswers = s.dutAnswers := rfl
@[simp] theorem State.finish_draws (st : Status) : (s.finish st).draws = s.draws := rfl
@[simp] theorem State.finish_resets (st : Status) : (s.finish st).resets = s.resets := rfl
@[simp] theorem State.finish_schedule (st : Status) : (s.finish st).schedule = s.schedule := rfl
@[simp] theorem State.finish_hostReplies (st : Status) : (s.finish st).hostReplies = s.hostReplies := rfl
@[simp] theorem State.finish_line (st : Status) (k : Line) : (s.finish st).line k = s.line k := rfl
@[simp] theorem State.finish_portBit (st : Status) (i : Nat) : (s.finish st).portBit i = s.portBit i := rfl
@[simp] theorem State.finish_inBit (st : Status) (i : Nat) : (s.finish st).inBit i = s.inBit i := rfl
@[simp] theorem State.finish_readLine (st : Status) : (s.finish st).readLine = s.readLine := rfl
@[simp] theorem State.finish_answerAt (st : Status) (j : Nat) : (s.finish st).answerAt j = s.answerAt j := rfl
@[simp] theorem State.finish_cbufSize (st : Status) : (s.finish st).cbufSize = s.cbufSize := rfl
@[simp] theorem State.finish_cbufRead (st : Status) (i : Nat) : (s.finish st).cbufRead i = s.cbufRead i := rfl

/-! ### `setAcc` -/

@[simp] theorem State.setAcc_params (v : Half) : (s.setAcc v).params = s.params := rfl
@[simp] theorem State.setAcc_reqType (v : Half) : (s.setAcc v).reqType = s.reqType := rfl
@[simp] theorem State.setAcc_reqCode (v : Half) : (s.setAcc v).reqCode = s.reqCode := rfl
@[simp] theorem State.setAcc_reqLen (v : Half) : (s.setAcc v).reqLen = s.reqLen := rfl
@[simp] theorem State.setAcc_reqValid (v : Half) : (s.setAcc v).reqValid = s.reqValid := rfl
@[simp] theorem State.setAcc_swWord (v : Half) : (s.setAcc v).swWord = s.swWord := rfl
@[simp] theorem State.setAcc_swCount (v : Half) : (s.setAcc v).swCount = s.swCount := rfl
@[simp] theorem State.setAcc_enCode (v : Half) : (s.setAcc v).enCode = s.enCode := rfl
@[simp] theorem State.setAcc_acc (v : Half) : (s.setAcc v).acc = v := rfl
@[simp] theorem State.setAcc_replyLen (v : Half) : (s.setAcc v).replyLen = s.replyLen := rfl
@[simp] theorem State.setAcc_epBusy (v : Half) : (s.setAcc v).epBusy = s.epBusy := rfl
@[simp] theorem State.setAcc_cbuf (v : Half) : (s.setAcc v).cbuf = s.cbuf := rfl
@[simp] theorem State.setAcc_seq (v : Half) : (s.setAcc v).seq = s.seq := rfl
@[simp] theorem State.setAcc_waitCnt (v : Half) : (s.setAcc v).waitCnt = s.waitCnt := rfl
@[simp] theorem State.setAcc_trace (v : Half) : (s.setAcc v).trace = s.trace := rfl
@[simp] theorem State.setAcc_dutAnswers (v : Half) : (s.setAcc v).dutAnswers = s.dutAnswers := rfl
@[simp] theorem State.setAcc_draws (v : Half) : (s.setAcc v).draws = s.draws := rfl
@[simp] theorem State.setAcc_resets (v : Half) : (s.setAcc v).resets = s.resets := rfl
@[simp] theorem State.setAcc_schedule (v : Half) : (s.setAcc v).schedule = s.schedule := rfl
@[simp] theorem State.setAcc_hostReplies (v : Half) : (s.setAcc v).hostReplies = s.hostReplies := rfl
@[simp] theorem State.setAcc_line (v : Half) (k : Line) : (s.setAcc v).line k = s.line k := rfl
@[simp] theorem State.setAcc_portBit (v : Half) (i : Nat) : (s.setAcc v).portBit i = s.portBit i := rfl
@[simp] theorem State.setAcc_inBit (v : Half) (i : Nat) : (s.setAcc v).inBit i = s.inBit i := rfl
@[simp] theorem State.setAcc_readLine (v : Half) : (s.setAcc v).readLine = s.readLine := rfl
@[simp] theorem State.setAcc_answerAt (v : Half) (j : Nat) : (s.setAcc v).answerAt j = s.answerAt j := rfl
@[simp] theorem State.setAcc_cbufSize (v : Half) : (s.setAcc v).cbufSize = s.cbufSize := rfl
@[simp] theorem State.setAcc_cbufRead (v : Half) (i : Nat) : (s.setAcc v).cbufRead i = s.cbufRead i := rfl

/-! ### `setReplyLen` -/

@[simp] theorem State.setReplyLen_params (n : Nat) : (s.setReplyLen n).params = s.params := rfl
@[simp] theorem State.setReplyLen_reqType (n : Nat) : (s.setReplyLen n).reqType = s.reqType := rfl
@[simp] theorem State.setReplyLen_reqCode (n : Nat) : (s.setReplyLen n).reqCode = s.reqCode := rfl
@[simp] theorem State.setReplyLen_reqLen (n : Nat) : (s.setReplyLen n).reqLen = s.reqLen := rfl
@[simp] theorem State.setReplyLen_reqValid (n : Nat) : (s.setReplyLen n).reqValid = s.reqValid := rfl
@[simp] theorem State.setReplyLen_swWord (n : Nat) : (s.setReplyLen n).swWord = s.swWord := rfl
@[simp] theorem State.setReplyLen_swCount (n : Nat) : (s.setReplyLen n).swCount = s.swCount := rfl
@[simp] theorem State.setReplyLen_enCode (n : Nat) : (s.setReplyLen n).enCode = s.enCode := rfl
@[simp] theorem State.setReplyLen_acc (n : Nat) : (s.setReplyLen n).acc = s.acc := rfl
@[simp] theorem State.setReplyLen_replyLen (n : Nat) : (s.setReplyLen n).replyLen = n := rfl
@[simp] theorem State.setReplyLen_epBusy (n : Nat) : (s.setReplyLen n).epBusy = s.epBusy := rfl
@[simp] theorem State.setReplyLen_cbuf (n : Nat) : (s.setReplyLen n).cbuf = s.cbuf := rfl
@[simp] theorem State.setReplyLen_seq (n : Nat) : (s.setReplyLen n).seq = s.seq := rfl
@[simp] theorem State.setReplyLen_waitCnt (n : Nat) : (s.setReplyLen n).waitCnt = s.waitCnt := rfl
@[simp] theorem State.setReplyLen_trace (n : Nat) : (s.setReplyLen n).trace = s.trace := rfl
@[simp] theorem State.setReplyLen_dutAnswers (n : Nat) : (s.setReplyLen n).dutAnswers = s.dutAnswers := rfl
@[simp] theorem State.setReplyLen_draws (n : Nat) : (s.setReplyLen n).draws = s.draws := rfl
@[simp] theorem State.setReplyLen_resets (n : Nat) : (s.setReplyLen n).resets = s.resets := rfl
@[simp] theorem State.setReplyLen_schedule (n : Nat) : (s.setReplyLen n).schedule = s.schedule := rfl
@[simp] theorem State.setReplyLen_hostReplies (n : Nat) : (s.setReplyLen n).hostReplies = s.hostReplies := rfl
@[simp] theorem State.setReplyLen_line (n : Nat) (k : Line) : (s.setReplyLen n).line k = s.line k := rfl
@[simp] theorem State.setReplyLen_portBit (n : Nat) (i : Nat) : (s.setReplyLen n).portBit i = s.portBit i := rfl
@[simp] theorem State.setReplyLen_inBit (n : Nat) (i : Nat) : (s.setReplyLen n).inBit i = s.inBit i := rfl
@[simp] theorem State.setReplyLen_readLine (n : Nat) : (s.setReplyLen n).readLine = s.readLine := rfl
@[simp] theorem State.setReplyLen_answerAt (n : Nat) (j : Nat) : (s.setReplyLen n).answerAt j = s.answerAt j := rfl
@[simp] theorem State.setReplyLen_cbufSize (n : Nat) : (s.setReplyLen n).cbufSize = s.cbufSize := rfl
@[simp] theorem State.setReplyLen_cbufRead (n : Nat) (i : Nat) : (s.setReplyLen n).cbufRead i = s.cbufRead i := rfl

/-! ### `loadSerialWord` -/

@[simp] theorem State.loadSerialWord_params (w : Word) (n : Byte) : (s.loadSerialWord w n).params = s.params := rfl
@[simp] theorem State.loadSerialWord_reqType (w : Word) (n : Byte) : (s.loadSerialWord w n).reqType = s.reqType := rfl
@[simp] theorem State.loadSerialWord_reqCode (w : Word) (n : Byte) : (s.loadSerialWord w n).reqCode = s.reqCode := rfl
@[simp] theorem State.loadSerialWord_reqLen (w : Word) (n : Byte) : (s.loadSerialWord w n).reqLen = s.reqLen := rfl
@[simp] theorem State.loadSerialWord_reqValid (w : Word) (n : Byte) : (s.loadSerialWord w n).reqValid = s.reqValid := rfl
@[simp] theorem State.loadSerialWord_swWord (w : Word) (n : Byte) : (s.loadSerialWord w n).swWord = w := rfl
@[simp] theorem State.loadSerialWord_swCount (w : Word) (n : Byte) : (s.loadSerialWord w n).swCount = n := rfl
@[simp] theorem State.loadSerialWord_enCode (w : Word) (n : Byte) : (s.loadSerialWord w n).enCode = s.enCode := rfl
@[simp] theorem State.loadSerialWord_acc (w : Word) (n : Byte) : (s.loadSerialWord w n).acc = s.acc := rfl
@[simp] theorem State.loadSerialWord_replyLen (w : Word) (n : Byte) : (s.loadSerialWord w n).replyLen = s.replyLen := rfl
@[simp] theorem State.loadSerialWord_epBusy (w : Word) (n : Byte) : (s.loadSerialWord w n).epBusy = s.epBusy := rfl
@[simp] theorem State.loadSerialWord_cbuf (w : Word) (n : Byte) : (s.loadSerialWord w n).cbuf = s.cbuf := rfl
@[simp] theorem State.loadSerialWord_seq (w : Word) (n : Byte) : (s.loadSerialWord w n).seq = s.seq := rfl
@[simp] theorem State.loadSerialWord_waitCnt (w : Word) (n : Byte) : (s.loadSerialWord w n).waitCnt = s.waitCnt := rfl
@[simp] theorem State.loadSerialWord_trace (w : Word) (n : Byte) : (s.loadSerialWord w n).trace = s.trace ++ [.loadWord w n] := rfl
@[simp] theorem State.loadSerialWord_dutAnswers (w : Word) (n : Byte) : (s.loadSerialWord w n).dutAnswers = s.dutAnswers := rfl
@[simp] theorem State.loadSerialWord_draws (w : Word) (n : Byte) : (s.loadSerialWord w n).draws = s.draws := rfl
@[simp] theorem State.loadSerialWord_resets (w : Word) (n : Byte) : (s.loadSerialWord w n).resets = s.resets := rfl
@[simp] theorem State.loadSerialWord_schedule (w : Word) (n : Byte) : (s.loadSerialWord w n).schedule = s.schedule := rfl
@[simp] theorem State.loadSerialWord_hostReplies (w : Word) (n : Byte) : (s.loadSerialWord w n).hostReplies = s.hostReplies := rfl
@[simp] theorem State.loadSerialWord_line (w : Word) (n : Byte) (k : Line) : (s.loadSerialWord w n).line k = s.line k := rfl
@[simp] theorem State.loadSerialWord_portBit (w : Word) (n : Byte) (i : Nat) : (s.loadSerialWord w n).portBit i = s.portBit i := rfl
@[simp] theorem State.loadSerialWord_inBit (w : Word) (n : Byte) (i : Nat) : (s.loadSerialWord w n).inBit i = s.inBit i := rfl
@[simp] theorem State.loadSerialWord_readLine (w : Word) (n : Byte) : (s.loadSerialWord w n).readLine = s.readLine := rfl
@[simp] theorem State.loadSerialWord_answerAt (w : Word) (n : Byte) (j : Nat) : (s.loadSerialWord w n).answerAt j = s.answerAt j := rfl
@[simp] theorem State.loadSerialWord_cbufSize (w : Word) (n : Byte) : (s.loadSerialWord w n).cbufSize = s.cbufSize := rfl
@[simp] theorem State.loadSerialWord_cbufRead (w : Word) (n : Byte) (i : Nat) : (s.loadSerialWord w n).cbufRead i = s.cbufRead i := rfl

/-! ### `loadEnableCode` -/

@[simp] theorem State.loadEnableCode_params (c : Byte) : (s.loadEnableCode c).params = s.params := rfl
@[simp] theorem State.loadEnableCode_reqType (c : Byte) : (s.loadEnableCode c).reqType = s.reqType := rfl
@[simp] theorem State.loadEnableCode_reqCode (c : Byte) : (s.loadEnableCode c).reqCode = s.reqCode := rfl
@[simp] theorem State.loadEnableCode_reqLen (c : Byte) : (s.loadEnableCode c).reqLen = s.reqLen := rfl
@[simp] theorem State.loadEnableCode_reqValid (c : Byte) : (s.loadEnableCode c).reqValid = s.reqValid := rfl
@[simp] theorem State.loadEnableCode_swWord (c : Byte) : (s.loadEnableCode c).swWord = s.swWord := rfl
@[simp] theorem State.loadEnableCode_swCount (c : Byte) : (s.loadEnableCode c).swCount = s.swCount := rfl
@[simp] theorem State.loadEnableCode_enCode (c : Byte) : (s.loadEnableCode c).enCode = c := rfl
@[simp] theorem State.loadEnableCode_acc (c : Byte) : (s.loadEnableCode c).acc = s.acc := rfl
@[simp] theorem State.loadEnableCode_replyLen (c : Byte) : (s.loadEnableCode c).replyLen = s.replyLen := rfl
@[simp] theorem State.loadEnableCode_epBusy (c : Byte) : (s.loadEnableCode c).epBusy = s.epBusy := rfl
@[simp] theorem State.loadEnableCode_cbuf (c : Byte) : (s.loadEnableCode c).cbuf = s.cbuf := rfl
@[simp] theorem State.loadEnableCode_seq (c : Byte) : (s.loadEnableCode c).seq = s.seq := rfl
@[simp] theorem State.loadEnableCode_waitCnt (c : Byte) : (s.loadEnableCode c).waitCnt = s.waitCnt := rfl
@[simp] theorem State.loadEnableCode_trace (c : Byte) : (s.loadEnableCode c).trace = s.trace ++ [.loadCode c] := rfl
@[simp] theorem State.loadEnableCode_dutAnswers (c : Byte) : (s.loadEnableCode c).dutAnswers = s.dutAnswers := rfl
@[simp] theorem State.loadEnableCode_draws (c : Byte) : (s.loadEnableCode c).draws = s.draws := rfl
@[simp] theorem State.loadEnableCode_resets (c : Byte) : (s.loadEnableCode c).resets = s.resets := rfl
@[simp] theorem State.loadEnableCode_schedule (c : Byte) : (s.loadEnableCode c).schedule = s.schedule := rfl
@[simp] theorem State.loadEnableCode_hostReplies (c : Byte) : (s.loadEnableCode c).hostReplies = s.hostReplies := rfl
@[simp] theorem State.loadEnableCode_line (c : Byte) (k : Line) : (s.loadEnableCode c).line k = s.line k := rfl
@[simp] theorem State.loadEnableCode_portBit (c : Byte) (i : Nat) : (s.loadEnableCode c).portBit i = s.portBit i := rfl
@[simp] theorem State.loadEnableCode_inBit (c : Byte) (i : Nat) : (s.loadEnableCode c).inBit i = s.inBit i := rfl
@[simp] theorem State.loadEnableCode_readLine (c : Byte) : (s.loadEnableCode c).readLine = s.readLine := rfl
@[simp] theorem State.loadEnableCode_answerAt (c : Byte) (j : Nat) : (s.loadEnableCode c).answerAt j = s.answerAt j := rfl
@[simp] theorem State.loadEnableCode_cbufSize (c : Byte) : (s.loadEnableCode c).cbufSize = s.cbufSize := rfl
@[simp] theorem State.loadEnableCode_cbufRead (c : Byte) (i : Nat) : (s.loadEnableCode c).cbufRead i = s.cbufRead i := rfl

/-! ### `countDraws` -/

@[simp] theorem State.countDraws_params (k : Nat) : (s.countDraws k).params = s.params := rfl
@[simp] theorem State.countDraws_reqType (k : Nat) : (s.countDraws k).reqType = s.reqType := rfl
@[simp] theorem State.countDraws_reqCode (k : Nat) : (s.countDraws k).reqCode = s.reqCode := rfl
@[simp] theorem State.countDraws_reqLen (k : Nat) : (s.countDraws k).reqLen = s.reqLen := rfl
@[simp] theorem State.countDraws_reqValid (k : Nat) : (s.countDraws k).reqValid = s.reqValid := rfl
@[simp] theorem State.countDraws_swWord (k : Nat) : (s.countDraws k).swWord = s.swWord := rfl
@[simp] theorem State.countDraws_swCount (k : Nat) : (s.countDraws k).swCount = s.swCount := rfl
@[simp] theorem State.countDraws_enCode (k : Nat) : (s.countDraws k).enCode = s.enCode := rfl
@[simp] theorem State.countDraws_acc (k : Nat) : (s.countDraws k).acc = s.acc := rfl
@[simp] theorem State.countDraws_replyLen (k : Nat) : (s.countDraws k).replyLen = s.replyLen := rfl
@[simp] theorem State.countDraws_epBusy (k : Nat) : (s.countDraws k).epBusy = s.epBusy := rfl
@[simp] theorem State.countDraws_cbuf (k : Nat) : (s.countDraws k).cbuf = s.cbuf := rfl
@[simp] theorem State.countDraws_seq (k : Nat) : (s.countDraws k).seq = s.seq := rfl
@[simp] theorem State.countDraws_waitCnt (k : Nat) : (s.countDraws k).waitCnt = s.waitCnt := rfl
@[simp] theorem State.countDraws_trace (k : Nat) : (s.countDraws k).trace = s.trace := rfl
@[simp] theorem State.countDraws_dutAnswers (k : Nat) : (s.countDraws k).dutAnswers = s.dutAnswers := rfl
@[simp] theorem State.countDraws_draws (k : Nat) : (s.countDraws k).draws = s.draws + k := rfl
@[simp] theorem State.countDraws_resets (k : Nat) : (s.countDraws k).resets = s.resets := rfl
@[simp] theorem State.countDraws_schedule (k : Nat) : (s.countDraws k).schedule = s.schedule := rfl
@[simp] theorem State.countDraws_hostReplies (k : Nat) : (s.countDraws k).hostReplies = s.hostReplies := rfl
@[simp] theorem State.countDraws_line (k : Nat) (l : Line) : (s.countDraws k).line l = s.line l := rfl
@[simp] theorem State.countDraws_portBit (k : Nat) (i : Nat) : (s.countDraws k).portBit i = s.portBit i := rfl
@[simp] theorem State.countDraws_inBit (k : Nat) (i : Nat) : (s.countDraws k).inBit i = s.inBit i := rfl
@[simp] theorem State.countDraws_cbufSize (k : Nat) : (s.countDraws k).cbufSize = s.cbufSize := rfl
@[simp] theorem State.countDraws_cbufRead (k : Nat) (i : Nat) : (s.countDraws k).cbufRead i = s.cbufRead i := rfl

/-! ### `countPoll` -/

@[simp] theorem State.countPoll_params : (s.countPoll).params = s.params := rfl
@[simp] theorem State.countPoll_reqType : (s.countPoll).reqType = s.reqType := rfl
@[simp] theorem State.countPoll_reqCode : (s.countPoll).reqCode = s.reqCode := rfl
@[simp] theorem State.countPoll_reqLen : (s.countPoll).reqLen = s.reqLen := rfl
@[simp] theorem State.countPoll_reqValid : (s.countPoll).reqValid = s.reqValid := rfl
@[simp] theorem State.countPoll_swWord : (s.countPoll).swWord = s.swWord := rfl
@[simp] theorem State.countPoll_swCount : (s.countPoll).swCount = s.swCount := rfl
@[simp] theorem State.countPoll_enCode : (s.countPoll).enCode = s.enCode := rfl
@[simp] theorem State.countPoll_acc : (s.countPoll).acc = s.acc := rfl
@[simp] theorem State.countPoll_replyLen : (s.countPoll).replyLen = s.replyLen := rfl
@[simp] theorem State.countPoll_epBusy : (s.countPoll).epBusy = s.epBusy := rfl
@[simp] theorem State.countPoll_cbuf : (s.countPoll).cbuf = s.cbuf := rfl
@[simp] theorem State.countPoll_seq : (s.countPoll).seq = s.seq := rfl
@[simp] theorem State.countPoll_waitCnt : (s.countPoll).waitCnt = s.waitCnt + 1 := rfl
@[simp] theorem State.countPoll_trace : (s.countPoll).trace = s.trace := rfl
@[simp] theorem State.countPoll_dutAnswers : (s.countPoll).dutAnswers = s.dutAnswers := rfl
@[simp] theorem State.countPoll_draws : (s.countPoll).draws = s.draws := rfl
@[simp] theorem State.countPoll_resets : (s.countPoll).resets = s.resets := rfl
@[simp] theorem State.countPoll_schedule : (s.countPoll).schedule = s.schedule := rfl
@[simp] theorem State.countPoll_hostReplies : (s.countPoll).hostReplies = s.hostReplies := rfl
@[simp] theorem State.countPoll_line (l : Line) : (s.countPoll).line l = s.line l := rfl
@[simp] theorem State.countPoll_portBit (i : Nat) : (s.countPoll).portBit i = s.portBit i := rfl
@[simp] theorem State.countPoll_inBit (i : Nat) : (s.countPoll).inBit i = s.inBit i := rfl
@[simp] theorem State.countPoll_cbufSize : (s.countPoll).cbufSize = s.cbufSize := rfl
@[simp] theorem State.countPoll_cbufRead (i : Nat) : (s.countPoll).cbufRead i = s.cbufRead i := rfl

end Sys2Proof.Machine
end

