-- ==== Sys2Proof/Laws/Memory.lean ====
section
/-! SUPPORT. The laws of the buffer: read after write, and that every write keeps the canonical form. -/

namespace Sys2Proof.Machine

theorem Memory.find_write (m : List Host.Cell) (a b : Nat) (v : Byte) :
    Memory.find (Memory.write m a v) b = if b = a then some v else Memory.find m b := by
  induction m with
  | nil => simp [Memory.write, Memory.find]
  | cons c m ih =>
    obtain ⟨d, w⟩ := c
    unfold Memory.write
    split
    · rfl
    · split
      · subst_vars
        by_cases h : b = d <;> simp [Memory.find, h]
      · by_cases h : b = d
        · subst h; simp_all [Memory.find, eq_comm]
        · simp [Memory.find, h, ih]

/-- Reading a byte after writing one (R35). -/
theorem State.cbufRead_cbufWrite (s : State) (a b : Nat) (v : Byte) :
    (s.cbufWrite a v).cbufRead b = if b = a then v else s.cbufRead b := by
  simp only [State.cbufRead, State.cbufWrite, Memory.find_write]
  split <;> rfl

@[simp] theorem State.cbufRead_cbufWrite_same (s : State) (a : Nat) (v : Byte) :
    (s.cbufWrite a v).cbufRead a = v := by simp [State.cbufRead_cbufWrite]

theorem Memory.wf_cons (c : Host.Cell) (m : List Host.Cell) :
    Memory.wf (c :: m) = true ↔ (∀ d ∈ m.head?, c.1 < d.1) ∧ Memory.wf m = true := by
  cases m <;> simp [Memory.wf]

/-- The first address after a write is the old first address or the written one. -/
theorem Memory.head_write (m : List Host.Cell) (a : Nat) (v : Byte) :
    ∀ d ∈ (Memory.write m a v).head?, d.1 = a ∨ d ∈ m.head? := by
  cases m with
  | nil => simp [Memory.write]
  | cons c m =>
    obtain ⟨b, w⟩ := c
    unfold Memory.write
    split
    · simp
    · split <;> simp_all

/-- A write keeps the canonical form. -/
theorem Memory.wf_write {m : List Host.Cell} (h : Memory.wf m = true) (a : Nat) (v : Byte) :
    Memory.wf (Memory.write m a v) = true := by
  induction m with
  | nil => rfl
  | cons c m ih =>
    obtain ⟨b, w⟩ := c
    obtain ⟨hc, hm⟩ := (Memory.wf_cons _ _).1 h
    unfold Memory.write
    split
    · exact (Memory.wf_cons _ _).2 ⟨by simpa using ‹a < b›, h⟩
    · split
      · subst_vars; exact (Memory.wf_cons _ _).2 ⟨hc, hm⟩
      · refine (Memory.wf_cons _ _).2 ⟨fun d hd => ?_, ih hm⟩
        rcases Memory.head_write m a v d hd with e | hd'
        · simp only [e]; omega
        · exact hc d hd'

/-- A write lists no address but the old ones and its own. -/
theorem Memory.mem_write {m : List Host.Cell} {a : Nat} {v : Byte} {c : Host.Cell}
    (h : c ∈ Memory.write m a v) : c.1 = a ∨ c ∈ m := by
  induction m with
  | nil => simp [Memory.write] at h; simp [h]
  | cons d m ih =>
    obtain ⟨b, w⟩ := d
    unfold Memory.write at h
    split at h
    · rcases List.mem_cons.1 h with h | h <;> simp_all
    · split at h
      · rcases List.mem_cons.1 h with h | h <;> simp_all
      · rcases List.mem_cons.1 h with h | h
        · simp [h]
        · rcases ih h with h | h <;> simp [h]

theorem Memory.wf_writeList {m : List Host.Cell} (h : Memory.wf m = true) (a : Nat) (vs : List Byte) :
    Memory.wf (Memory.writeList m a vs) = true := by
  induction vs generalizing m a with
  | nil => exact h
  | cons v vs ih => exact ih (Memory.wf_write h a v) (a + 1)

theorem Memory.mem_writeList {m : List Host.Cell} {a : Nat} {vs : List Byte} {c : Host.Cell}
    (h : c ∈ Memory.writeList m a vs) : c.1 < a + vs.length ∨ c ∈ m := by
  induction vs generalizing m a with
  | nil => exact .inr h
  | cons v vs ih =>
    rcases ih h with h | h
    · left; simp only [List.length_cons]; omega
    · rcases Memory.mem_write h with h | h
      · left; simp only [List.length_cons]; omega
      · exact .inr h

/-- What a byte reads as after writing consecutive bytes. -/
theorem Memory.find_writeList (m : List Host.Cell) (a : Nat) (vs : List Byte) (b : Nat) :
    Memory.find (Memory.writeList m a vs) b =
      if a ≤ b ∧ b - a < vs.length then vs[b - a]? else Memory.find m b := by
  induction vs generalizing m a with
  | nil => simp [Memory.writeList]
  | cons v vs ih =>
    rw [Memory.writeList, ih, Memory.find_write]
    rcases lt_trichotomy a b with hb | hb | hb
    · have h2 : b - a = b - (a + 1) + 1 := by omega
      simp only [h2, List.getElem?_cons_succ, List.length_cons]
      have h3 : b ≠ a := by omega
      simp only [if_neg h3]
      congr 1
      simp only [eq_iff_iff]; omega
    · subst hb; simp
    · have h1 : ¬ (a + 1 ≤ b) := by omega
      have h2 : ¬ (a ≤ b) := by omega
      have h3 : b ≠ a := by omega
      simp [h1, h2, h3]

end Sys2Proof.Machine
end

