-- ==== Sys2Proof/Laws/Ports.lean ====
section
/-! SUPPORT. The laws of the ports: one port write changes one bit (R60, R104), the six positions are distinct (R100), and
what a sample reads. -/

namespace Sys2Proof

theorem Params.pin_lt (p : Params) (l : Line) : p.pin l < p.portW := by
  have h := p.ok
  simp only [RawParams.admissible, RawParams.pins, Bool.and_eq_true, decide_eq_true_eq, List.all_eq_true] at h
  obtain ⟨⟨⟨h, -⟩, -⟩, -⟩ := h
  cases l <;> exact h _ (by simp [RawParams.pin])

theorem Params.pin_inj (p : Params) {l k : Line} : p.pin l = p.pin k ↔ l = k := by
  have h := p.ok
  simp only [RawParams.admissible, RawParams.pins, Bool.and_eq_true, decide_eq_true_eq, List.all_eq_true] at h
  obtain ⟨⟨⟨-, h⟩, -⟩, -⟩ := h
  simp only [List.nodup_cons, List.mem_cons, List.not_mem_nil, or_false, not_or] at h
  constructor
  · intro e
    cases l <;> cases k <;> simp_all [RawParams.pin]
  · rintro rfl; rfl

theorem Params.pinDin_lt (p : Params) : p.pinDin < p.portW := by
  have h := p.ok
  simp only [RawParams.admissible, Bool.and_eq_true, decide_eq_true_eq] at h
  exact h.1.2

theorem Params.five_le_cbufSize (p : Params) : 5 ≤ p.cbufSize := by
  have h := p.ok
  simp only [RawParams.admissible, Bool.and_eq_true, decide_eq_true_eq] at h
  exact h.2

namespace Machine

theorem getLsbD_oneShift {w i j : Nat} (hi : i < w) : (1#w <<< i).getLsbD j = decide (j = i) := by
  simp only [BitVec.getLsbD_shiftLeft, BitVec.getLsbD_one]
  by_cases h : j = i
  · subst h; simp; omega
  · by_cases hj : j < w
    · by_cases hij : j < i
      · simp [h, hij]
      · have : ¬ (j - i = 0) := by omega
        simp [h, hij, hj, this]
    · simp [h, hj]

/-- `SET L` changes the bit of `L` and no other (R101, R104). -/
theorem State.portBit_raiseLine (s : State) (l : Line) (i : Nat) :
    (s.raiseLine l).portBit i = (decide (i = s.params.pin l) || s.portBit i) := by
  have h : (s.raiseLine l).portBit i = (s.portOut ||| s.pinMask l).getLsbD i := rfl
  rw [h, BitVec.getLsbD_or, State.pinMask, getLsbD_oneShift (s.params.pin_lt l), Bool.or_comm]
  rfl

/-- `CLR L` changes the bit of `L` and no other (R102, R104). -/
theorem State.portBit_lowerLine (s : State) (l : Line) (i : Nat) :
    (s.lowerLine l).portBit i = (!decide (i = s.params.pin l) && s.portBit i) := by
  have h : (s.lowerLine l).portBit i = (s.portOut &&& ~~~ s.pinMask l).getLsbD i := rfl
  rw [h, BitVec.getLsbD_and, BitVec.getLsbD_not, State.pinMask, getLsbD_oneShift (s.params.pin_lt l)]
  by_cases hi : i < s.params.portW
  · simp [hi, State.portBit, Bool.and_comm]
  · have : s.portOut.getLsbD i = false := BitVec.getLsbD_of_ge _ _ (by omega)
    simp [State.portBit, this]

@[simp] theorem State.line_raiseLine (s : State) (l k : Line) :
    (s.raiseLine l).line k = (decide (k = l) || s.line k) := by
  have h := s.portBit_raiseLine l (s.params.pin k)
  simpa [State.line, State.portBit, s.params.pin_inj] using h

@[simp] theorem State.line_lowerLine (s : State) (l k : Line) :
    (s.lowerLine l).line k = (!decide (k = l) && s.line k) := by
  have h := s.portBit_lowerLine l (s.params.pin k)
  simpa [State.line, State.portBit, s.params.pin_inj] using h

/-- What the DUT drives is what the line reads (R103). -/
@[simp] theorem State.readLine_dutDrive (s : State) : s.dutDrive.readLine = s.answerAt 0 := by
  have h : s.dutDrive.readLine = (portWithBit s.portIn s.params.pinDin (s.answerAt 0)).getLsbD s.params.pinDin := rfl
  have hp := s.params.pinDin_lt
  cases hb : s.answerAt 0 with
  | true => rw [h, hb, portWithBit, if_pos rfl, BitVec.getLsbD_or, getLsbD_oneShift hp]; simp
  | false =>
    rw [h, hb, portWithBit, if_neg Bool.false_ne_true, BitVec.getLsbD_and, BitVec.getLsbD_not, getLsbD_oneShift hp]
    simp

/-- After one sample the next answer is the second one. -/
theorem State.answerAt_dutDrive (s : State) (j : Nat) : s.dutDrive.answerAt j = s.answerAt (j + 1) := by
  simp only [State.answerAt, State.dutDrive_dutAnswers, State.dutDrive_draws]
  cases h : s.dutAnswers with
  | nil => simp [Nat.add_assoc, Nat.add_comm 1]
  | cons b bs => simp

@[simp] theorem State.line_dutDrive (s : State) (k : Line) : s.dutDrive.line k = s.line k := rfl

@[simp] theorem State.dutDrive_draws_le (s : State) : s.draws ≤ s.dutDrive.draws := by
  simp only [State.dutDrive_draws]; split <;> omega

end Machine

end Sys2Proof
end

