-- ==== Sys2Proof/Laws/Engine.lean ====
section
/-! SUPPORT. What a run of micro-ops does: the micro-ops that leave the queue to the sequencer ("plain" ones) as a fold over
the state, and `drive` over such a run. -/

namespace Sys2Proof.Machine

/-- The micro-ops after which the queue goes on with its rest (R37 (b)). -/
def isPlain : MicroOp → Bool
  | .waitIdle => false
  | .stageW _ => false
  | .stageE => false
  | .done _ => false
  | _ => true

/-- What a plain micro-op does to the state. -/
def act : MicroOp → State → State
  | .set l, s => opSet l s
  | .clr l, s => opClr l s
  | .hold, s => opHold s
  | .aclr, s => opAclr s
  | .shin, s => opShin s
  | .stl a, s => opStl a s
  | .sth a, s => opSth a s
  | .arm n, s => opArm n s
  | _, s => s

/-- What a list of plain micro-ops does to the state, first micro-op first. -/
def acts (ops : List MicroOp) (s : State) : State := ops.foldl (fun s op => act op s) s

@[simp] theorem acts_nil (s : State) : acts [] s = s := rfl
@[simp] theorem acts_cons (op : MicroOp) (ops : List MicroOp) (s : State) : acts (op :: ops) s = acts ops (act op s) := rfl
theorem acts_append (xs ys : List MicroOp) (s : State) : acts (xs ++ ys) s = acts ys (acts xs s) := by
  simp [acts, List.foldl_append]

@[simp] theorem State.resume_resume (s : State) (q r : List MicroOp) : (s.resume q).resume r = s.resume r := rfl
@[simp] theorem State.resume_finish (s : State) (q : List MicroOp) (st : Status) : (s.resume q).finish st = s.finish st := rfl
@[simp] theorem State.accept_resume (s : State) (ty c : Byte) (q r : List MicroOp) :
    (s.accept ty c q).resume r = s.accept ty c r := rfl
@[simp] theorem State.resume_accept (s : State) (ty c : Byte) (q r : List MicroOp) :
    (s.resume r).accept ty c q = s.accept ty c q := rfl

theorem State.resume_self {s : State} {q : List MicroOp} (h : s.seq = .run q) : s.resume q = s := by
  simp only [State.resume, ← h]

theorem microOp_plain {op : MicroOp} (h : isPlain op = true) (q : List MicroOp) (s : State) :
    microOp op q s = (act op s).resume q := by
  cases op <;> first | rfl | simp [isPlain] at h

@[simp] theorem act_resume (op : MicroOp) (q : List MicroOp) (s : State) :
    act op (s.resume q) = (act op s).resume q := by
  cases op <;> rfl

@[simp] theorem acts_resume (ops : List MicroOp) (q : List MicroOp) (s : State) :
    acts ops (s.resume q) = (acts ops s).resume q := by
  induction ops generalizing s with
  | nil => rfl
  | cons op ops ih => rw [acts_cons, act_resume, ih, acts_cons]

/-! ### `drive` -/

theorem drive_idle {s : State} (h : s.seq = .idle) (k : Nat) : drive k s = s := by
  cases k with
  | zero => rfl
  | succ k => simp only [drive, h]

theorem drive_add (a b : Nat) (s : State) : drive (a + b) s = drive b (drive a s) := by
  induction a generalizing s with
  | zero => simp [drive]
  | succ a ih =>
    rw [Nat.add_right_comm]
    cases h : s.seq with
    | idle => rw [drive_idle h, drive_idle h, drive_idle h]
    | run q =>
      cases q with
      | nil =>
        have e : ∀ k, drive k s = s := by
          intro k; cases k with
          | zero => rfl
          | succ k => simp only [drive, h]
        simp only [e]
      | cons op q => simp only [drive, h, ih]

@[simp] theorem drive_cons (k : Nat) (op : MicroOp) (q : List MicroOp) (s : State) :
    drive (k + 1) (s.resume (op :: q)) = drive k (microOp op q (s.resume (op :: q))) := rfl

/-- Driving through a run of plain micro-ops. -/
theorem drive_acts {ops : List MicroOp} (h : ∀ op ∈ ops, isPlain op = true) (q : List MicroOp) (k : Nat) (s : State) :
    drive (ops.length + k) (s.resume (ops ++ q)) = drive k ((acts ops s).resume q) := by
  induction ops generalizing s with
  | nil => simp
  | cons op ops ih =>
    have h1 : (op :: ops).length + k = (ops.length + k) + 1 := by simp only [List.length_cons]; omega
    rw [h1, List.cons_append, drive_cons, microOp_plain (h op (by simp)), act_resume, State.resume_resume,
      ih (fun o ho => h o (by simp [ho])), acts_cons]

theorem drive_done (k : Nat) (st : Status) (q : List MicroOp) (s : State) :
    drive (k + 1) (s.resume (.done st :: q)) = s.finish st := by
  rw [drive_cons]
  exact drive_idle rfl k

/-- A run of plain micro-ops and its `DONE`, given steps enough. -/
theorem drive_acts_done {ops : List MicroOp} (h : ∀ op ∈ ops, isPlain op = true) (st : Status) (q : List MicroOp) {k : Nat}
    (hk : ops.length < k) (s : State) : drive k (s.resume (ops ++ .done st :: q)) = (acts ops s).finish st := by
  obtain ⟨j, rfl⟩ : ∃ j, k = ops.length + (j + 1) := ⟨k - ops.length - 1, by omega⟩
  rw [drive_acts h, drive_done]

/-! ### What a run of plain micro-ops leaves -/

theorem act_line (op : MicroOp) (s : State) (l : Line) : (act op s).line l = levelAfter l [op] (s.line l) := by
  cases op <;>
    simp [act, opSet, opClr, opHold, opAclr, opShin, shiftLine, opStl, opSth, opArm, levelAfter] <;>
    (rename_i k; by_cases h : l = k <;> simp [h, eq_comm]) 

theorem levelAfter_cons (l : Line) (op : MicroOp) (q : List MicroOp) (b : Bool) :
    levelAfter l (op :: q) b = levelAfter l q (levelAfter l [op] b) := by
  cases op <;> rfl

theorem levelAfter_append (l : Line) (xs ys : List MicroOp) (b : Bool) :
    levelAfter l (xs ++ ys) b = levelAfter l ys (levelAfter l xs b) := by
  induction xs generalizing b with
  | nil => rfl
  | cons op xs ih => rw [List.cons_append, levelAfter_cons, ih, ← levelAfter_cons]

/-- The level of a line after a run of plain micro-ops. -/
theorem acts_line (ops : List MicroOp) (s : State) (l : Line) : (acts ops s).line l = levelAfter l ops (s.line l) := by
  induction ops generalizing s with
  | nil => rfl
  | cons op ops ih => rw [acts_cons, ih, act_line, ← levelAfter_cons]

end Sys2Proof.Machine
end

