-- ==== Sys2Proof/Laws/Runs.lean ====
section
/-! SUPPORT. Which fields a run of plain micro-ops leaves alone, and what a run of read pulses reads. -/

namespace Sys2Proof.Machine

/-- A function of the state that no micro-op of a run changes is the same after the run. -/
theorem acts_keeps {α : Type} (f : State → α) {ops : List MicroOp} (h : ∀ op ∈ ops, ∀ s, f (act op s) = f s) (s : State) :
    f (acts ops s) = f s := by
  induction ops generalizing s with
  | nil => rfl
  | cons op ops ih => rw [acts_cons, ih (fun o ho => h o (by simp [ho])), h op (by simp)]

/-! ### Fields no plain micro-op writes -/

@[simp] theorem act_params (op : MicroOp) (s : State) : (act op s).params = s.params := by cases op <;> rfl
@[simp] theorem acts_params (ops : List MicroOp) (s : State) : (acts ops s).params = s.params :=
  acts_keeps (fun s => s.params) (fun op _ s => act_params op s) s
@[simp] theorem act_reqType (op : MicroOp) (s : State) : (act op s).reqType = s.reqType := by cases op <;> rfl
@[simp] theorem acts_reqType (ops : List MicroOp) (s : State) : (acts ops s).reqType = s.reqType :=
  acts_keeps (fun s => s.reqType) (fun op _ s => act_reqType op s) s
@[simp] theorem act_reqCode (op : MicroOp) (s : State) : (act op s).reqCode = s.reqCode := by cases op <;> rfl
@[simp] theorem acts_reqCode (ops : List MicroOp) (s : State) : (acts ops s).reqCode = s.reqCode :=
  acts_keeps (fun s => s.reqCode) (fun op _ s => act_reqCode op s) s
@[simp] theorem act_reqLen (op : MicroOp) (s : State) : (act op s).reqLen = s.reqLen := by cases op <;> rfl
@[simp] theorem acts_reqLen (ops : List MicroOp) (s : State) : (acts ops s).reqLen = s.reqLen :=
  acts_keeps (fun s => s.reqLen) (fun op _ s => act_reqLen op s) s
@[simp] theorem act_reqValid (op : MicroOp) (s : State) : (act op s).reqValid = s.reqValid := by cases op <;> rfl
@[simp] theorem acts_reqValid (ops : List MicroOp) (s : State) : (acts ops s).reqValid = s.reqValid :=
  acts_keeps (fun s => s.reqValid) (fun op _ s => act_reqValid op s) s
@[simp] theorem act_swWord (op : MicroOp) (s : State) : (act op s).swWord = s.swWord := by cases op <;> rfl
@[simp] theorem acts_swWord (ops : List MicroOp) (s : State) : (acts ops s).swWord = s.swWord :=
  acts_keeps (fun s => s.swWord) (fun op _ s => act_swWord op s) s
@[simp] theorem act_swCount (op : MicroOp) (s : State) : (act op s).swCount = s.swCount := by cases op <;> rfl
@[simp] theorem acts_swCount (ops : List MicroOp) (s : State) : (acts ops s).swCount = s.swCount :=
  acts_keeps (fun s => s.swCount) (fun op _ s => act_swCount op s) s
@[simp] theorem act_enCode (op : MicroOp) (s : State) : (act op s).enCode = s.enCode := by cases op <;> rfl
@[simp] theorem acts_enCode (ops : List MicroOp) (s : State) : (acts ops s).enCode = s.enCode :=
  acts_keeps (fun s => s.enCode) (fun op _ s => act_enCode op s) s
@[simp] theorem act_epBusy (op : MicroOp) (s : State) : (act op s).epBusy = s.epBusy := by cases op <;> rfl
@[simp] theorem acts_epBusy (ops : List MicroOp) (s : State) : (acts ops s).epBusy = s.epBusy :=
  acts_keeps (fun s => s.epBusy) (fun op _ s => act_epBusy op s) s
@[simp] theorem act_seq (op : MicroOp) (s : State) : (act op s).seq = s.seq := by cases op <;> rfl
@[simp] theorem acts_seq (ops : List MicroOp) (s : State) : (acts ops s).seq = s.seq :=
  acts_keeps (fun s => s.seq) (fun op _ s => act_seq op s) s
@[simp] theorem act_waitCnt (op : MicroOp) (s : State) : (act op s).waitCnt = s.waitCnt := by cases op <;> rfl
@[simp] theorem acts_waitCnt (ops : List MicroOp) (s : State) : (acts ops s).waitCnt = s.waitCnt :=
  acts_keeps (fun s => s.waitCnt) (fun op _ s => act_waitCnt op s) s
@[simp] theorem act_resets (op : MicroOp) (s : State) : (act op s).resets = s.resets := by cases op <;> rfl
@[simp] theorem acts_resets (ops : List MicroOp) (s : State) : (acts ops s).resets = s.resets :=
  acts_keeps (fun s => s.resets) (fun op _ s => act_resets op s) s
@[simp] theorem act_schedule (op : MicroOp) (s : State) : (act op s).schedule = s.schedule := by cases op <;> rfl
@[simp] theorem acts_schedule (ops : List MicroOp) (s : State) : (acts ops s).schedule = s.schedule :=
  acts_keeps (fun s => s.schedule) (fun op _ s => act_schedule op s) s
@[simp] theorem act_hostReplies (op : MicroOp) (s : State) : (act op s).hostReplies = s.hostReplies := by cases op <;> rfl
@[simp] theorem acts_hostReplies (ops : List MicroOp) (s : State) : (acts ops s).hostReplies = s.hostReplies :=
  acts_keeps (fun s => s.hostReplies) (fun op _ s => act_hostReplies op s) s
@[simp] theorem acts_cbufSize (ops : List MicroOp) (s : State) : (acts ops s).cbufSize = s.cbufSize :=
  congrArg (fun p => p.cbufSize) (acts_params ops s)

/-! ### Runs of line micro-ops only -/

/-- The micro-ops of the line driver: `SET`, `CLR`, `HOLD` (family 40). -/
def isLineOp : MicroOp → Bool
  | .set _ => true
  | .clr _ => true
  | .hold => true
  | _ => false

/-- The event of a line micro-op (R13). -/
def lineEvent : MicroOp → Event
  | .set l => .up l
  | .clr l => .down l
  | _ => .hold

theorem isPlain_of_isLineOp {op : MicroOp} (h : isLineOp op = true) : isPlain op = true := by
  cases op <;> simp_all [isLineOp, isPlain]

theorem acts_lineOps_acc {ops : List MicroOp} (h : ∀ op ∈ ops, isLineOp op = true) (s : State) :
    (acts ops s).acc = s.acc :=
  acts_keeps (fun s => s.acc) (fun op ho s => by
    have := h op ho
    cases op <;> first | rfl | simp [isLineOp] at this) s
theorem acts_lineOps_replyLen {ops : List MicroOp} (h : ∀ op ∈ ops, isLineOp op = true) (s : State) :
    (acts ops s).replyLen = s.replyLen :=
  acts_keeps (fun s => s.replyLen) (fun op ho s => by
    have := h op ho
    cases op <;> first | rfl | simp [isLineOp] at this) s
theorem acts_lineOps_cbuf {ops : List MicroOp} (h : ∀ op ∈ ops, isLineOp op = true) (s : State) :
    (acts ops s).cbuf = s.cbuf :=
  acts_keeps (fun s => s.cbuf) (fun op ho s => by
    have := h op ho
    cases op <;> first | rfl | simp [isLineOp] at this) s
theorem acts_lineOps_dutAnswers {ops : List MicroOp} (h : ∀ op ∈ ops, isLineOp op = true) (s : State) :
    (acts ops s).dutAnswers = s.dutAnswers :=
  acts_keeps (fun s => s.dutAnswers) (fun op ho s => by
    have := h op ho
    cases op <;> first | rfl | simp [isLineOp] at this) s
theorem acts_lineOps_draws {ops : List MicroOp} (h : ∀ op ∈ ops, isLineOp op = true) (s : State) :
    (acts ops s).draws = s.draws :=
  acts_keeps (fun s => s.draws) (fun op ho s => by
    have := h op ho
    cases op <;> first | rfl | simp [isLineOp] at this) s
theorem acts_lineOps_inBit {ops : List MicroOp} (h : ∀ op ∈ ops, isLineOp op = true) (s : State) (i : Nat) :
    (acts ops s).inBit i = s.inBit i :=
  acts_keeps (fun s => s.inBit i) (fun op ho s => by
    have := h op ho
    cases op <;> first | rfl | simp [isLineOp] at this) s

theorem acts_lineOps_portIn {ops : List MicroOp} (h : ∀ op ∈ ops, isLineOp op = true) (s : State) :
    (acts ops s).portIn.toNat = s.portIn.toNat :=
  acts_keeps (fun s => s.portIn.toNat) (fun op ho s => by
    have := h op ho
    cases op <;> first | rfl | simp [isLineOp] at this) s

theorem acts_lineOps_trace {ops : List MicroOp} (h : ∀ op ∈ ops, isLineOp op = true) (s : State) :
    (acts ops s).trace = s.trace ++ ops.map lineEvent := by
  induction ops generalizing s with
  | nil => simp
  | cons op ops ih =>
    rw [acts_cons, ih (fun o ho => h o (by simp [ho]))]
    have := h op (by simp)
    cases op <;> simp_all [isLineOp, act, opSet, opClr, opHold, lineEvent]

/-- A run writes only the bits of the lines it sets or clears (R104). -/
theorem acts_portBit {ops : List MicroOp} {s : State} {i : Nat}
    (h : ∀ l, (MicroOp.set l ∈ ops ∨ MicroOp.clr l ∈ ops) → i ≠ s.params.pin l) : (acts ops s).portBit i = s.portBit i := by
  induction ops generalizing s with
  | nil => rfl
  | cons op ops ih =>
    rw [acts_cons, ih (s := act op s) (fun l hl => by
      rw [act_params]; exact h l (hl.imp (List.mem_cons_of_mem _) (List.mem_cons_of_mem _)))]
    cases op with
    | set l =>
      have hi := h l (.inl (by simp))
      simp [act, opSet, State.portBit_raiseLine, hi]
    | clr l =>
      have hi := h l (.inr (by simp))
      simp [act, opClr, State.portBit_lowerLine, hi]
    | _ => rfl

/-! ### Read pulses (R124) -/

@[simp] theorem State.answers_zero (s : State) (i : Nat) : s.answers i 0 = [] := rfl

theorem State.answers_succ (s : State) (i n : Nat) : s.answers i (n + 1) = s.answerAt i :: s.answers (i + 1) n := by
  simp only [State.answers, List.range_succ_eq_map, List.map_cons, List.map_map, Nat.add_zero]
  congr 1
  apply List.map_congr_left
  intro j _
  simp only [Function.comp_apply]
  congr 1
  omega

@[simp] theorem State.length_answers (s : State) (i n : Nat) : (s.answers i n).length = n := by simp [State.answers]

theorem readPulses_plain (m : Nat) : ∀ op ∈ readPulses m, isPlain op = true := by
  induction m with
  | zero => simp [readPulses]
  | succ m ih =>
    intro op h
    rcases List.mem_append.1 h with h | h
    · simp only [readPulse, List.mem_cons, List.not_mem_nil, or_false] at h
      rcases h with rfl | rfl | rfl | rfl | rfl <;> rfl
    · exact ih op h

theorem length_readPulses (m : Nat) : (readPulses m).length = 5 * m := by
  induction m with
  | zero => rfl
  | succ m ih => simp only [readPulses, List.length_append, ih, readPulse, List.length_cons, List.length_nil]; omega

/-- One read pulse: a sample enters `ACC` (R122, R124). -/
theorem acts_readPulse_acc (s : State) : (acts readPulse s).acc = shiftIn s.acc (s.answerAt 0) := by
  simp [readPulse, act, opSet, opClr, opHold, opShin, shiftLine]

theorem acts_readPulse_trace (s : State) : (acts readPulse s).trace = s.trace ++ pulseTrace (s.answerAt 0) := by
  simp [readPulse, act, opSet, opClr, opHold, opShin, shiftLine, pulseTrace]

theorem acts_readPulse_answerAt (s : State) (j : Nat) : (acts readPulse s).answerAt j = s.answerAt (j + 1) := by
  simp [readPulse, act, opSet, opClr, opHold, opShin, shiftLine, State.answerAt_dutDrive]

theorem acts_readPulse_dutAnswers (s : State) : (acts readPulse s).dutAnswers = s.dutAnswers.tail := rfl

theorem acts_readPulse_draws (s : State) :
    (acts readPulse s).draws = if s.dutAnswers.isEmpty then s.draws + 1 else s.draws := rfl

/-- The accumulator after `m` read pulses: the samples shifted in, first sample first (R56). -/
theorem acts_readPulses_acc (m : Nat) (s : State) :
    (acts (readPulses m) s).acc = (s.answers 0 m).foldl shiftIn s.acc := by
  induction m generalizing s with
  | zero => rfl
  | succ m ih =>
    rw [readPulses, acts_append, ih, acts_readPulse_acc, State.answers_succ, List.foldl_cons]
    simp only [State.answers, acts_readPulse_answerAt]
    congr 1
    apply List.map_congr_left
    intro j _
    congr 1
    omega

theorem acts_readPulses_answerAt (m : Nat) (s : State) (j : Nat) :
    (acts (readPulses m) s).answerAt j = s.answerAt (m + j) := by
  induction m generalizing s with
  | zero => simp [readPulses]
  | succ m ih =>
    rw [readPulses, acts_append, ih, acts_readPulse_answerAt]
    congr 1
    omega

theorem acts_readPulses_answers (m : Nat) (s : State) (i n : Nat) :
    (acts (readPulses m) s).answers i n = s.answers (m + i) n := by
  simp only [State.answers, acts_readPulses_answerAt]
  apply List.map_congr_left
  intro j _
  congr 1
  omega

theorem acts_readPulses_trace (m : Nat) (s : State) :
    (acts (readPulses m) s).trace = s.trace ++ pulsesTrace (s.answers 0 m) := by
  induction m generalizing s with
  | zero => simp [readPulses, pulsesTrace]
  | succ m ih =>
    have h : (acts readPulse s).answers 0 m = s.answers 1 m := acts_readPulses_answers 1 s 0 m
    rw [readPulses, acts_append, ih, acts_readPulse_trace, h, State.answers_succ, pulsesTrace, pulsesTrace,
      List.flatMap_cons, List.append_assoc]

theorem acts_readPulses_dutAnswers (m : Nat) (s : State) :
    (acts (readPulses m) s).dutAnswers = s.dutAnswers.drop m := by
  induction m generalizing s with
  | zero => rfl
  | succ m ih =>
    rw [readPulses, acts_append, ih, acts_readPulse_dutAnswers, ← List.drop_one, List.drop_drop]
    congr 1
    omega

theorem acts_readPulses_draws (m : Nat) (s : State) :
    (acts (readPulses m) s).draws = s.draws + (m - s.dutAnswers.length) := by
  induction m generalizing s with
  | zero => simp [readPulses]
  | succ m ih =>
    rw [readPulses, acts_append, ih, acts_readPulse_dutAnswers, acts_readPulse_draws]
    cases h : s.dutAnswers with
    | nil => simp; omega
    | cons b bs => simp

theorem acts_readPulses_cbuf (m : Nat) (s : State) : (acts (readPulses m) s).cbuf = s.cbuf := by
  induction m generalizing s with
  | zero => rfl
  | succ m ih => rw [readPulses, acts_append, ih]; rfl

theorem acts_readPulses_replyLen (m : Nat) (s : State) : (acts (readPulses m) s).replyLen = s.replyLen := by
  induction m generalizing s with
  | zero => rfl
  | succ m ih => rw [readPulses, acts_append, ih]; rfl

theorem levelAfter_readPulses (l : Line) (m : Nat) (b : Bool) :
    levelAfter l (readPulses m) b = if l = .clk ∧ 0 < m then false else b := by
  induction m generalizing b with
  | zero => simp [readPulses, levelAfter]
  | succ m ih =>
    rw [readPulses, levelAfter_append, ih]
    cases l <;> simp [readPulse, levelAfter]

/-! ### The accumulator as a number (R56, R158 (b)) -/

theorem toNat_shiftIn (acc : Half) (b : Bool) : (shiftIn acc b).toNat = (2 * acc.toNat + b.toNat) % 65536 := by
  have h : shiftIn acc b = acc * 2 + (BitVec.ofBool b).zeroExtend 16 := by
    apply BitVec.eq_of_toNat_eq
    have : (acc <<< 1) &&& (BitVec.ofBool b).zeroExtend 16 = 0#16 := by
      ext i hi
      cases b <;> simp
      intro h; omega
    rw [shiftIn, ← BitVec.add_eq_or_of_and_eq_zero _ _ this]
    simp [BitVec.toNat_add, BitVec.toNat_mul, Nat.shiftLeft_eq]
  rw [h]
  cases b <;> simp [BitVec.toNat_add, BitVec.toNat_mul] <;> omega

theorem msbFirst_append_single (bs : List Bool) (b : Bool) : msbFirst (bs ++ [b]) = 2 * msbFirst bs + b.toNat := by
  simp [msbFirst, List.foldl_append]

theorem msbFirst_lt (bs : List Bool) : msbFirst bs < 2 ^ bs.length := by
  induction bs using List.reverseRecOn with
  | nil => simp [msbFirst]
  | append_singleton bs b ih =>
    rw [msbFirst_append_single, List.length_append, List.length_singleton, Nat.pow_succ]
    have : b.toNat ≤ 1 := Bool.toNat_le b
    omega

/-- Samples shifted into a cleared accumulator spell their number, as long as none is shifted out (R126, R132). -/
theorem toNat_foldl_shiftIn {bs : List Bool} (h : bs.length ≤ 16) :
    (bs.foldl shiftIn (0 : Half)).toNat = msbFirst bs := by
  induction bs using List.reverseRecOn with
  | nil => rfl
  | append_singleton bs b ih =>
    rw [List.length_append, List.length_singleton] at h
    rw [List.foldl_append, List.foldl_cons, List.foldl_nil, toNat_shiftIn, ih (by omega), msbFirst_append_single]
    have h1 := msbFirst_lt (bs ++ [b])
    rw [msbFirst_append_single, List.length_append, List.length_singleton] at h1
    have h2 : 2 ^ (bs.length + 1) ≤ 2 ^ 16 := Nat.pow_le_pow_right (by norm_num) h
    omega

end Sys2Proof.Machine
end

