-- ==== Sys2Proof/Laws/Lists.lean ====
section
/-! SUPPORT. Facts about the micro-op lists: their lengths, which micro-ops stand in them, the levels they leave and the
events they make. -/

namespace Sys2Proof.Machine

/-! ### `uops_write` (R111) -/

theorem writeGroups_lineOps (draw : Nat → Bool) (w : Word) (n : Nat) :
    ∀ op ∈ writeGroups draw w n, isLineOp op = true := by
  induction n with
  | zero => simp [writeGroups]
  | succ p ih =>
    intro op h
    rcases List.mem_append.1 h with h | h
    · simp only [writeGroup, List.mem_cons, List.not_mem_nil, or_false] at h
      rcases h with rfl | rfl | rfl | rfl | rfl
      · unfold drv; split <;> rfl
      all_goals rfl
    · exact ih op h

theorem uopsWrite_lineOps (draw : Nat → Bool) (n : Nat) (w : Word) (st : Strobe) :
    ∀ op ∈ uopsWrite draw n w st, isLineOp op = true := by
  intro op h
  simp only [uopsWrite, List.mem_append, List.mem_cons, List.not_mem_nil, or_false] at h
  rcases h with (rfl | h) | rfl | rfl | rfl | rfl
  · rfl
  · exact writeGroups_lineOps draw w n op h
  all_goals rfl

theorem uopsWrite_plain (draw : Nat → Bool) (n : Nat) (w : Word) (st : Strobe) :
    ∀ op ∈ uopsWrite draw n w st, isPlain op = true :=
  fun op h => isPlain_of_isLineOp (uopsWrite_lineOps draw n w st op h)

theorem length_writeGroups (draw : Nat → Bool) (w : Word) (n : Nat) : (writeGroups draw w n).length = 5 * n := by
  induction n with
  | zero => rfl
  | succ n ih => simp only [writeGroups, List.length_append, ih, writeGroup, List.length_cons, List.length_nil]; omega

theorem length_uopsWrite_le (draw : Nat → Bool) (n : Byte) (w : Word) (st : Strobe) :
    (uopsWrite draw n.toNat w st).length ≤ 1280 := by
  have := n.isLt
  simp only [uopsWrite, List.length_append, length_writeGroups, List.length_cons, List.length_nil]
  omega

/-- The lines a write sets or clears: its strobe, `DATA` and `CLK` (R110). -/
theorem mem_uopsWrite_line {draw : Nat → Bool} {n : Nat} {w : Word} {st : Strobe} {l : Line}
    (h : MicroOp.set l ∈ uopsWrite draw n w st ∨ MicroOp.clr l ∈ uopsWrite draw n w st) :
    l = strobeLine st ∨ l = .data ∨ l = .clk := by
  have g : ∀ n op, op ∈ writeGroups draw w n → ∀ l, (op = .set l ∨ op = .clr l) → l = .data ∨ l = .clk := by
    intro n
    induction n with
    | zero => simp [writeGroups]
    | succ p ih =>
      intro op h l hl
      rcases List.mem_append.1 h with h | h
      · simp only [writeGroup, List.mem_cons, List.not_mem_nil, or_false] at h
        unfold drv at h
        split at h <;> rcases h with rfl | rfl | rfl | rfl | rfl <;> simp_all
      · exact ih op h l hl
  rcases h with h | h <;>
  · simp only [uopsWrite, List.mem_append, List.mem_cons, List.not_mem_nil, or_false] at h
    rcases h with (h | h) | h | h | h | h
    all_goals first
      | exact .inr (g _ _ h _ (by simp))
      | simp_all

/-- The level of each line after one write group. -/
theorem levelAfter_writeGroup (l : Line) (x b : Bool) :
    levelAfter l (writeGroup x) b = if l = .clk then false else if l = .data then x else b := by
  cases l <;> cases x <;> rfl

theorem levelAfter_writeGroups_clk (draw : Nat → Bool) (w : Word) (n : Nat) (b : Bool) :
    levelAfter .clk (writeGroups draw w n) b = if n = 0 then b else false := by
  induction n generalizing b with
  | zero => rfl
  | succ p ih => simp [writeGroups, levelAfter_append, ih, levelAfter_writeGroup]

theorem levelAfter_writeGroups_data (draw : Nat → Bool) (w : Word) (n : Nat) (b : Bool) :
    levelAfter .data (writeGroups draw w n) b = if n = 0 then b else w.getLsbD 0 := by
  induction n generalizing b with
  | zero => rfl
  | succ p ih =>
    by_cases hp : p = 0
    · subst hp; simp [writeGroups, levelAfter_writeGroup, wordBit]
    · simp [writeGroups, levelAfter_append, ih, hp]

theorem levelAfter_writeGroups_other (draw : Nat → Bool) (w : Word) (n : Nat) (b : Bool) {l : Line} (h1 : l ≠ .data)
    (h2 : l ≠ .clk) : levelAfter l (writeGroups draw w n) b = b := by
  induction n generalizing b with
  | zero => rfl
  | succ p ih => simp [writeGroups, levelAfter_append, ih, levelAfter_writeGroup, h1, h2]

/-- The level of each line after a write (R117). -/
theorem levelAfter_uopsWrite (draw : Nat → Bool) (n : Nat) (w : Word) (st : Strobe) (l : Line) (b : Bool) :
    levelAfter l (uopsWrite draw n w st) b =
      if l = strobeLine st then false
      else if l = .clk then (if n = 0 then b else false)
      else if l = .data then (if n = 0 then b else w.getLsbD 0)
      else b := by
  rw [uopsWrite, levelAfter_append, levelAfter_append]
  cases st <;> cases l <;>
    simp [strobeLine, levelAfter, levelAfter_writeGroups_clk, levelAfter_writeGroups_data,
      levelAfter_writeGroups_other]

/-- The events of a write's groups are those of the bits it drives (R111). -/
theorem map_lineEvent_writeGroups (draw : Nat → Bool) (w : Word) (n : Nat) :
    (writeGroups draw w n).map lineEvent = groupsTrace (writeBits draw n w) := by
  induction n with
  | zero => rfl
  | succ p ih =>
    have h : writeBits draw (p + 1) w = wordBit draw w p :: writeBits draw p w := by
      simp only [writeBits, List.range_succ_eq_map, List.map_cons, List.map_map]
      congr 1
      apply List.map_congr_left
      intro i _
      simp only [Function.comp_apply, Nat.add_sub_cancel, Nat.succ_eq_add_one]
      congr 1
      omega
    rw [writeGroups, List.map_append, ih, h, groupsTrace, groupsTrace, List.flatMap_cons]
    congr 1
    simp only [writeGroup, drv, groupTrace, dataEvent]
    split <;> rfl

/-- The events of a write (R111, R119). -/
theorem map_lineEvent_uopsWrite (draw : Nat → Bool) (n : Nat) (w : Word) (st : Strobe) :
    (uopsWrite draw n w st).map lineEvent = writeTrace draw n w st := by
  simp only [uopsWrite, writeTrace, List.map_append, map_lineEvent_writeGroups]
  rfl

/-! ### `uops_enable` (R161) -/

theorem uopsEnable_lineOps (c : Byte) : ∀ op ∈ uopsEnable c, isLineOp op = true := by
  intro op h
  unfold uopsEnable at h
  split_ifs at h <;> simp at h <;> rcases h with rfl | rfl | rfl | rfl <;> rfl

theorem uopsEnable_plain (c : Byte) : ∀ op ∈ uopsEnable c, isPlain op = true :=
  fun op h => isPlain_of_isLineOp (uopsEnable_lineOps c op h)

theorem length_uopsEnable_le (c : Byte) : (uopsEnable c).length ≤ 4 := by
  unfold uopsEnable
  split_ifs <;> simp

theorem mem_uopsEnable_line {c : Byte} {l : Line} (h : MicroOp.set l ∈ uopsEnable c ∨ MicroOp.clr l ∈ uopsEnable c) :
    l = .ce ∨ l = .pdrf := by
  unfold uopsEnable at h
  split_ifs at h <;> simp at h <;> tauto

/-- The level of each line after the enable setter (R162, R163). -/
theorem levelAfter_uopsEnable (c : Byte) (l : Line) (b : Bool) :
    levelAfter l (uopsEnable c) b = if l = .ce then ceOf c else if l = .pdrf then pdrfOf c else b := by
  unfold uopsEnable ceOf pdrfOf
  cases l <;> split_ifs <;> simp_all [levelAfter]

theorem map_lineEvent_uopsEnable (c : Byte) : (uopsEnable c).map lineEvent = enableTrace c := by
  unfold uopsEnable enableTrace
  split_ifs <;> rfl

/-! ### `uops_read(1, 8)` and `uops_status` (R125, R131) -/

/-- The plain part of the program of `SPI.RD` after the wait. -/
def readOps : List MicroOp :=
  [.aclr] ++ readPulses 8 ++ [.stl 0, .sth 1, .sth 2, .arm 2]

/-- The plain part of the program of `STAT.RD` after the wait. -/
def statusOps : List MicroOp :=
  [.aclr] ++ readPulses 2 ++ [.stl 0, .aclr] ++ readPulses 8 ++ [.stl 1, .arm 2]

theorem programSpiRd_eq : programSpiRd = .waitIdle :: (readOps ++ [.done .ok]) := rfl

theorem programStatRd_eq : programStatRd = .waitIdle :: (statusOps ++ [.done .ok]) := rfl

theorem readOps_plain : ∀ op ∈ readOps, isPlain op = true := by decide

theorem statusOps_plain : ∀ op ∈ statusOps, isPlain op = true := by decide

end Sys2Proof.Machine
end

