-- ==== Sys2Proof/Laws/Commands.lean ====
section
/-! SUPPORT. Each command as one equation: what `runCommand` answers, in terms of the plain run of its micro-ops, for a
passed wait, a held wait and a wait that gives up. -/

namespace Sys2Proof.Machine

/-- A command that has been accepted and whose wait has passed. -/
def State.begun (s : State) (ty c : Byte) : State := (s.accept ty c []).emit .idle

@[simp] theorem State.begun_params (s : State) (ty c : Byte) : (s.begun ty c).params = s.params := rfl
@[simp] theorem State.begun_reqType (s : State) (ty c : Byte) : (s.begun ty c).reqType = s.reqType := rfl
@[simp] theorem State.begun_reqCode (s : State) (ty c : Byte) : (s.begun ty c).reqCode = s.reqCode := rfl
@[simp] theorem State.begun_reqLen (s : State) (ty c : Byte) : (s.begun ty c).reqLen = s.reqLen := rfl
@[simp] theorem State.begun_reqValid (s : State) (ty c : Byte) : (s.begun ty c).reqValid = false := rfl
@[simp] theorem State.begun_swWord (s : State) (ty c : Byte) : (s.begun ty c).swWord = s.swWord := rfl
@[simp] theorem State.begun_swCount (s : State) (ty c : Byte) : (s.begun ty c).swCount = s.swCount := rfl
@[simp] theorem State.begun_enCode (s : State) (ty c : Byte) : (s.begun ty c).enCode = s.enCode := rfl
@[simp] theorem State.begun_acc (s : State) (ty c : Byte) : (s.begun ty c).acc = s.acc := rfl
@[simp] theorem State.begun_replyLen (s : State) (ty c : Byte) : (s.begun ty c).replyLen = s.replyLen := rfl
@[simp] theorem State.begun_epBusy (s : State) (ty c : Byte) : (s.begun ty c).epBusy = s.epBusy := rfl
@[simp] theorem State.begun_cbuf (s : State) (ty c : Byte) : (s.begun ty c).cbuf = s.cbuf := rfl
@[simp] theorem State.begun_waitCnt (s : State) (ty c : Byte) : (s.begun ty c).waitCnt = 0 := rfl
@[simp] theorem State.begun_trace (s : State) (ty c : Byte) :
    (s.begun ty c).trace = s.trace ++ [.request ty c] ++ [.idle] := rfl
@[simp] theorem State.begun_dutAnswers (s : State) (ty c : Byte) : (s.begun ty c).dutAnswers = s.dutAnswers := rfl
@[simp] theorem State.begun_draws (s : State) (ty c : Byte) : (s.begun ty c).draws = s.draws := rfl
@[simp] theorem State.begun_resets (s : State) (ty c : Byte) : (s.begun ty c).resets = s.resets := rfl
@[simp] theorem State.begun_schedule (s : State) (ty c : Byte) : (s.begun ty c).schedule = s.schedule := rfl
@[simp] theorem State.begun_hostReplies (s : State) (ty c : Byte) : (s.begun ty c).hostReplies = s.hostReplies := rfl
@[simp] theorem State.begun_line (s : State) (ty c : Byte) (l : Line) : (s.begun ty c).line l = s.line l := rfl
@[simp] theorem State.begun_portBit (s : State) (ty c : Byte) (i : Nat) : (s.begun ty c).portBit i = s.portBit i := rfl
@[simp] theorem State.begun_inBit (s : State) (ty c : Byte) (i : Nat) : (s.begun ty c).inBit i = s.inBit i := rfl
@[simp] theorem State.begun_answerAt (s : State) (ty c : Byte) (j : Nat) : (s.begun ty c).answerAt j = s.answerAt j := rfl
@[simp] theorem State.begun_cbufRead (s : State) (ty c : Byte) (a : Nat) : (s.begun ty c).cbufRead a = s.cbufRead a := rfl

theorem opWaitIdle_pass {s : State} (h : s.epBusy = false) (q : List MicroOp) :
    opWaitIdle q s = (s.emit .idle).resume q := by simp [opWaitIdle, h]

theorem opWaitIdle_hold {s : State} (h : s.epBusy = true) (hl : s.params.epWaitLimit = none) (q : List MicroOp) :
    opWaitIdle q s = s.resume (.waitIdle :: q) := by simp [opWaitIdle, h, hl]

theorem runCommand_pass {s : State} (h : s.epBusy = false) (ty c : Byte) (q : List MicroOp) :
    ∃ k, 1299 ≤ k ∧ runCommand ty c (.waitIdle :: q) s = drive k ((s.begun ty c).resume q) := by
  refine ⟨1299 + s.params.epWaitLimit.getD 0, by omega, ?_⟩
  have e : commandSteps s = (1299 + s.params.epWaitLimit.getD 0) + 1 := by unfold commandSteps; omega
  have e2 : s.accept ty c (.waitIdle :: q) = (s.accept ty c []).resume (.waitIdle :: q) := rfl
  rw [runCommand, e, e2, drive_cons]
  congr 1
  exact opWaitIdle_pass (s := (s.accept ty c []).resume (.waitIdle :: q)) h q

/-- A command whose program is a wait, plain micro-ops and a `DONE`. -/
theorem runCommand_plain {s : State} (h : s.epBusy = false) (ty c : Byte) {ops : List MicroOp}
    (hp : ∀ op ∈ ops, isPlain op = true) (hl : ops.length ≤ 1298) (st : Status) :
    runCommand ty c (.waitIdle :: (ops ++ [.done st])) s = (acts ops (s.begun ty c)).finish st := by
  obtain ⟨k, hk, e⟩ := runCommand_pass h ty c (ops ++ [.done st])
  rw [e, drive_acts_done hp st [] (by omega)]

theorem runCommand_spiRd {s : State} (h : s.epBusy = false) (ty c : Byte) :
    runCommand ty c programSpiRd s = (acts readOps (s.begun ty c)).finish .ok := by
  rw [programSpiRd_eq]
  exact runCommand_plain h ty c readOps_plain (by decide) .ok

theorem runCommand_statRd {s : State} (h : s.epBusy = false) (ty c : Byte) :
    runCommand ty c programStatRd s = (acts statusOps (s.begun ty c)).finish .ok := by
  rw [programStatRd_eq]
  exact runCommand_plain h ty c statusOps_plain (by decide) .ok

/-- `CEPD.WR` after a passed wait. -/
theorem runCommand_enable {s : State} (h : s.epBusy = false) (ty c : Byte) :
    runCommand ty c programCepdWr s =
      (acts (uopsEnable s.payloadCode) ((s.begun ty c).loadEnableCode s.payloadCode)).finish (enableStatus s.payloadCode) := by
  obtain ⟨k, hk, e⟩ := runCommand_pass h ty c [.stageE]
  obtain ⟨j, rfl⟩ : ∃ j, k = j + 1 := ⟨k - 1, by omega⟩
  rw [programCepdWr, e, drive_cons]
  have hl := length_uopsEnable_le s.payloadCode
  exact drive_acts_done (s := (s.begun ty c).loadEnableCode s.payloadCode) (uopsEnable_plain s.payloadCode)
    (enableStatus s.payloadCode) [] (by omega)

/-- The program of a write with strobe `st` (R148, R150). -/
def programWrite (st : Strobe) : List MicroOp := [.waitIdle, .stageW st]

/-- A write after a passed wait whose count is not refused. -/
theorem runCommand_write {s : State} (h : s.epBusy = false) (ty c : Byte) (st : Strobe)
    (hs : s.refusesCount s.payloadCount = false) :
    runCommand ty c (programWrite st) s =
      (acts (uopsWrite s.drawAt s.payloadCount.toNat s.payloadWord st)
        (((s.begun ty c).loadSerialWord s.payloadWord s.payloadCount).countDraws (s.payloadCount.toNat - 32))).finish .ok := by
  obtain ⟨k, hk, e⟩ := runCommand_pass h ty c [.stageW st]
  obtain ⟨j, rfl⟩ : ∃ j, k = j + 1 := ⟨k - 1, by omega⟩
  rw [programWrite, e, drive_cons]
  have e2 : microOp (.stageW st) [] ((s.begun ty c).resume [.stageW st]) =
      (((s.begun ty c).loadSerialWord s.payloadWord s.payloadCount).countDraws (s.payloadCount.toNat - 32)).resume
        (uopsWrite s.drawAt s.payloadCount.toNat s.payloadWord st ++ [.done .ok]) := by
    have hs' : ((s.begun ty c).resume [.stageW st]).refusesCount ((s.begun ty c).resume [.stageW st]).payloadCount = false := hs
    simp only [microOp, opStageW, hs', Bool.false_eq_true, if_false]
    rfl
  have hl := length_uopsWrite_le s.drawAt s.payloadCount s.payloadWord st
  rw [e2, drive_acts_done (uopsWrite_plain _ _ _ _) .ok [] (by omega)]

/-- A write after a passed wait whose count is refused (strict only). -/
theorem runCommand_refused {s : State} (h : s.epBusy = false) (ty c : Byte) (st : Strobe)
    (hs : s.refusesCount s.payloadCount = true) :
    runCommand ty c (programWrite st) s =
      ((s.begun ty c).loadSerialWord s.payloadWord s.payloadCount).finish .invalidBitCount := by
  obtain ⟨k, hk, e⟩ := runCommand_pass h ty c [.stageW st]
  obtain ⟨j, rfl⟩ : ∃ j, k = j + 1 + 1 := ⟨k - 2, by omega⟩
  rw [programWrite, e, drive_cons]
  have e2 : microOp (.stageW st) [] ((s.begun ty c).resume [.stageW st]) =
      ((s.begun ty c).loadSerialWord s.payloadWord s.payloadCount).resume [.done .invalidBitCount] := by
    have hs' : ((s.begun ty c).resume [.stageW st]).refusesCount ((s.begun ty c).resume [.stageW st]).payloadCount = true := hs
    simp only [microOp, opStageW, hs', if_true]
    rfl
  rw [e2, drive_done]

theorem runCommand_unknown (s : State) (ty c : Byte) :
    runCommand ty c programUnknown s = (opArm 0 (s.accept ty c [])).finish .unknownCommand := by
  have e : commandSteps s = (1298 + s.params.epWaitLimit.getD 0) + 1 + 1 := by unfold commandSteps; omega
  have e2 : s.accept ty c programUnknown = (s.accept ty c []).resume [.arm 0, .done .unknownCommand] := rfl
  rw [runCommand, e, e2, drive_cons]
  exact drive_done _ _ _ (opArm 0 (s.accept ty c []))

/-- A held wait: driving changes nothing (R143, U5). -/
theorem drive_held {s : State} {q : List MicroOp} (hq : s.seq = .run (.waitIdle :: q)) (h : s.epBusy = true)
    (hl : s.params.epWaitLimit = none) (k : Nat) : drive k s = s := by
  induction k with
  | zero => rfl
  | succ k ih =>
    have e : microOp .waitIdle q s = s := by
      have : microOp .waitIdle q s = opWaitIdle q s := rfl
      rw [this, opWaitIdle_hold h hl, State.resume_self hq]
    simp only [drive, hq, e, ih]

theorem runCommand_held {s : State} (h : s.epBusy = true) (hl : s.params.epWaitLimit = none) (ty c : Byte)
    (q : List MicroOp) : runCommand ty c (.waitIdle :: q) s = s.accept ty c (.waitIdle :: q) :=
  drive_held (s := s.accept ty c (.waitIdle :: q)) rfl h hl _

/-- The state after `k` busy polls under a limit. -/
def State.polled (s : State) (k : Nat) : State :=
  { s with waitCnt := s.waitCnt + k, trace := s.trace ++ List.replicate k .poll }

theorem State.polled_zero (s : State) : s.polled 0 = s := by simp [State.polled]

theorem State.polled_succ (s : State) (k : Nat) : (s.countPoll.emit .poll).polled k = s.polled (k + 1) := by
  simp [State.polled, State.countPoll, State.emit, List.replicate_succ]
  omega

/-- A wait that gives up: `limit - WAITCNT` polls counted, one more that finds the limit, the `DONE` (R143). -/
theorem drive_timeout {limit : Nat} (q : List MicroOp) (d k : Nat) :
    ∀ s : State, s.epBusy = true → s.params.epWaitLimit = some limit → s.waitCnt + d = limit →
      drive (d + 2 + k) (s.resume (.waitIdle :: q)) = ((s.polled d).emit .poll).finish .endpointTimeout := by
  induction d with
  | zero =>
    intro s h hl hw
    have e : 0 + 2 + k = k + 1 + 1 := by omega
    have e2 : microOp .waitIdle q (s.resume (.waitIdle :: q)) = (s.emit .poll).resume [.done .endpointTimeout] := by
      have hw' : ¬ s.waitCnt < limit := by omega
      simp [microOp, opWaitIdle, h, hl, hw']
      rfl
    rw [e, drive_cons, e2, drive_done, State.polled_zero]
  | succ d ih =>
    intro s h hl hw
    have e : d + 1 + 2 + k = (d + 2 + k) + 1 := by omega
    have e2 : microOp .waitIdle q (s.resume (.waitIdle :: q)) = (s.countPoll.emit .poll).resume (.waitIdle :: q) := by
      have hw' : s.waitCnt < limit := by omega
      simp [microOp, opWaitIdle, h, hl, hw']
      rfl
    have hw2 : (s.countPoll.emit .poll).waitCnt + d = limit := by simp; omega
    rw [e, drive_cons, e2, ih (s.countPoll.emit .poll) h hl hw2, State.polled_succ]

theorem runCommand_timeout {s : State} {limit : Nat} (h : s.epBusy = true) (hl : s.params.epWaitLimit = some limit)
    (ty c : Byte) (q : List MicroOp) :
    runCommand ty c (.waitIdle :: q) s =
      (((s.accept ty c []).polled limit).emit .poll).finish .endpointTimeout := by
  have e : commandSteps s = limit + 2 + 1298 := by simp only [commandSteps, hl, Option.getD_some]; omega
  have e2 : s.accept ty c (.waitIdle :: q) = (s.accept ty c []).resume (.waitIdle :: q) := rfl
  rw [runCommand, e, e2]
  exact drive_timeout q limit 1298 (s.accept ty c []) h hl (by simp)

end Sys2Proof.Machine
end

