-- ==== Sys2Proof/Laws/Decode.lean ====
section
/-! SUPPORT. Command words as pairs of bytes (R80), and what a decoded header says of the command. -/

namespace Sys2Proof

/-- A command word is its type byte above its code byte (R80). -/
theorem cwType_append_cwCode (cw : Half) : cwType cw ++ cwCode cw = cw := by
  unfold cwType cwCode
  apply BitVec.eq_of_getLsbD_eq
  intro i hi
  rw [BitVec.getLsbD_append, BitVec.getLsbD_extractLsb', BitVec.getLsbD_extractLsb']
  by_cases h : i < 8
  · simp [h]
  · have h8 : i - 8 < 8 := by omega
    have h9 : 8 + (i - 8) = i := by omega
    simp [h, h8, h9]

theorem cwType_append (t c : Byte) : cwType (t ++ c) = t := by
  unfold cwType
  apply BitVec.eq_of_getLsbD_eq
  intro i hi
  rw [BitVec.getLsbD_extractLsb', BitVec.getLsbD_append]
  simp [hi]

theorem cwCode_append (t c : Byte) : cwCode (t ++ c) = c := by
  unfold cwCode
  apply BitVec.eq_of_getLsbD_eq
  intro i hi
  rw [BitVec.getLsbD_extractLsb', BitVec.getLsbD_append]
  simp [hi]

/-- The two bytes of a header that decodes are those of the command it decodes to (R86, R141). -/
theorem bytes_of_decodeHeader {t c : Byte} {i : Instr} (h : decodeHeader t c = .instr i) :
    i.typeByte = t ∧ i.codeByte = c := by
  unfold decodeHeader dirOfType at h
  split_ifs at h with h1 h2
  all_goals
    simp only [Decoded.instr.injEq, decodeCommand] at h
    split_ifs at h <;> subst h <;> simp_all [Instr.typeByte, Instr.codeByte, Dir.typeByte]

end Sys2Proof
end

