-- ==== Sys2Proof/Laws/PerInstr.lean ====
section
/-! SUPPORT. One lemma for each constructor of `Instr`: its command word splits into its two bytes, and its type byte is one
of the two that select the block (R80, R82). -/

namespace Sys2Proof.Laws.CommandWord

/-- The command word holds the type byte above the code byte, and the type byte selects the block. -/
def Statement (i : Instr) : Prop :=
  cwType (encode i) = i.typeByte ∧ cwCode (encode i) = i.codeByte ∧ (dirOfType i.typeByte).isSome = true

/-- The bytes of any encoding are the bytes encoded. -/
theorem of_selected {i : Instr} (h : (dirOfType i.typeByte).isSome = true) : Statement i :=
  ⟨cwType_append _ _, cwCode_append _ _, h⟩

theorem spiWr : Statement .spiWr := of_selected rfl

theorem spiRd : Statement .spiRd := of_selected rfl

theorem trigWr : Statement .trigWr := of_selected rfl

theorem statRd (d : Dir) : Statement (.statRd d) := of_selected (by cases d <;> rfl)

theorem cepdWr : Statement .cepdWr := of_selected rfl

theorem unknown (d : Dir) (c : Byte) : Statement (.unknown d c) := of_selected (by cases d <;> rfl)

end Sys2Proof.Laws.CommandWord
end

