-- ==== Sys2Proof/Laws/Samples.lean ====
section
/-! SUPPORT. The bits of the accumulator after samples are shifted in (R56, R122). -/

namespace Sys2Proof.Machine

/-- One shift: the sample at bit 0, every other bit from the one below it, bit 15 lost (R122). -/
theorem getLsbD_shiftIn (a : Half) (b : Bool) (j : Nat) :
    (shiftIn a b).getLsbD j = if j = 0 then b else (decide (j < 16) && a.getLsbD (j - 1)) := by
  unfold shiftIn
  by_cases hj : j = 0
  · subst hj; cases b <;> simp
  · have : ¬ j < 1 := by omega
    simp [hj, this, BitVec.getLsbD_ofBool]

/-- The bits after a run of samples: the last sample is bit 0 (R56). -/
theorem getLsbD_foldl_shiftIn (bs : List Bool) (a : Half) (i : Nat) :
    (bs.foldl shiftIn a).getLsbD i =
      if i < bs.length then (decide (i < 16) && bs[bs.length - 1 - i]?.getD false)
      else decide (i < 16) && a.getLsbD (i - bs.length) := by
  induction bs using List.reverseRecOn generalizing i with
  | nil =>
    by_cases h16 : i < 16
    · simp [h16]
    · simp [h16, BitVec.getLsbD_of_ge a i (by omega)]
  | append_singleton bs b ih =>
    rw [List.foldl_append, List.foldl_cons, List.foldl_nil, getLsbD_shiftIn]
    by_cases hi : i = 0
    · subst hi; simp
    · rw [if_neg hi, ih]
      simp only [List.length_append, List.length_singleton]
      by_cases h1 : i < bs.length + 1
      · have h2 : i - 1 < bs.length := by omega
        have h3 : bs.length + 1 - 1 - i = bs.length - 1 - (i - 1) := by omega
        rw [if_pos h2, if_pos h1, h3, List.getElem?_append_left (by omega)]
        by_cases h5 : i < 16
        · have : i - 1 < 16 := by omega
          simp [h5, this]
        · simp [h5]
      · have h3 : i - 1 - bs.length = i - (bs.length + 1) := by omega
        rw [if_neg (by omega), if_neg h1, h3]
        by_cases h5 : i < 16
        · have : i - 1 < 16 := by omega
          simp [h5, this]
        · simp [h5]

/-- The bits of `m` answers of the DUT shifted into a cleared accumulator, `m` at most 16. -/
theorem getLsbD_answers (s : State) (i j : Nat) {m : Nat} (hm : m ≤ 16) :
    ((s.answers i m).foldl shiftIn (0 : Half)).getLsbD j = (decide (j < m) && s.answerAt (i + (m - 1 - j))) := by
  rw [getLsbD_foldl_shiftIn]
  simp only [State.length_answers]
  by_cases h : j < m
  · have h1 : j < 16 := by omega
    have h2 : m - 1 - j < m := by omega
    simp [h, h1, State.answers, List.getElem?_range h2]
  · simp [h]

/-! ### What a run leaves outside the bytes it stores and the bit it samples -/

theorem acts_lineOps_cbufRead {ops : List MicroOp} (h : ∀ op ∈ ops, isLineOp op = true) (s : State) (a : Nat) :
    (acts ops s).cbufRead a = s.cbufRead a := by
  simp [State.cbufRead, acts_lineOps_cbuf h]

/-- A run stores only at the offsets its stores name (R123). -/
theorem acts_cbufRead_other {ops : List MicroOp} {a : Nat} (h : ∀ op ∈ ops, storeOffset op ≠ some a) (s : State) :
    (acts ops s).cbufRead a = s.cbufRead a :=
  acts_keeps (fun s => s.cbufRead a) (fun op ho s => by
    have := h op ho
    cases op <;> first
      | rfl
      | (simp [storeOffset] at this
         simp [act, opStl, opSth, State.cbufRead_cbufWrite, Ne.symm this])) s

/-- The DUT drives one bit of `PORT_IN` and no other (R28). -/
theorem State.inBit_dutDrive (s : State) {j : Nat} (hj : j ≠ s.params.pinDin) : s.dutDrive.inBit j = s.inBit j := by
  have h : s.dutDrive.inBit j = (portWithBit s.portIn s.params.pinDin (s.answerAt 0)).getLsbD j := rfl
  have hp := s.params.pinDin_lt
  rw [h]
  by_cases hw : j < s.params.portW
  · cases hb : s.answerAt 0
    · simp only [portWithBit, Bool.false_eq_true, if_false, BitVec.getLsbD_and, BitVec.getLsbD_not, getLsbD_oneShift hp]
      simp [hj, hw, State.inBit]
    · simp only [portWithBit, if_true, BitVec.getLsbD_or, getLsbD_oneShift hp]
      simp [hj, State.inBit]
  · rw [BitVec.getLsbD_of_ge _ _ (by omega)]
    exact (BitVec.getLsbD_of_ge _ _ (by omega)).symm

theorem acts_inBit (ops : List MicroOp) (s : State) {j : Nat} (hj : j ≠ s.params.pinDin) :
    (acts ops s).inBit j = s.inBit j := by
  induction ops generalizing s with
  | nil => rfl
  | cons op ops ih =>
    rw [acts_cons, ih _ (by rw [act_params]; exact hj)]
    cases op with
    | shin => exact State.inBit_dutDrive s hj
    | _ => rfl

end Sys2Proof.Machine
end

