-- ==== Sys2Proof/Laws/Sequencer.lean ====
section
/-! SUPPORT. How the queue goes on (R37): what each micro-op leaves as the queue, when a micro-op runs without a fault, and a
run of plain micro-ops as steps of `ENGINE`. -/

namespace Sys2Proof.Machine

/-- Every meaning is a command run to its end. -/
theorem exec_eq (i : Instr) (s : State) : exec i s = .next (runCommand i.typeByte i.codeByte (program i) s) := by
  cases i <;> rfl

/-- A program that begins with the wait. -/
theorem program_of_waits {i : Instr} (h : waitsForIdle i = true) : program i = .waitIdle :: (program i).tail := by
  cases i <;> first | rfl | simp [waitsForIdle] at h

/-- The three ways of a waiting command: it passes, it is held, or it gives up (R143). -/
theorem wait_cases {i : Instr} (hw : waitsForIdle i = true) (s : State) :
    s.epBusy = false ∨
    (s.epBusy = true ∧ s.params.epWaitLimit = none ∧
      runCommand i.typeByte i.codeByte (program i) s = s.accept i.typeByte i.codeByte (program i)) ∨
    (∃ limit, s.epBusy = true ∧ s.params.epWaitLimit = some limit ∧
      runCommand i.typeByte i.codeByte (program i) s =
        (((s.accept i.typeByte i.codeByte []).polled limit).emit .poll).finish .endpointTimeout) := by
  cases hb : s.epBusy with
  | false => exact .inl rfl
  | true =>
    cases hl : s.params.epWaitLimit with
    | none => exact .inr (.inl ⟨rfl, rfl, by rw [program_of_waits hw, runCommand_held hb hl]⟩)
    | some limit => exact .inr (.inr ⟨limit, rfl, rfl, by rw [program_of_waits hw, runCommand_timeout hb hl]⟩)

/-! ### Fields no micro-op writes -/

theorem microOp_params (op : MicroOp) (q : List MicroOp) (s : State) : (microOp op q s).params = s.params := by
  cases op with
  | waitIdle =>
    simp only [microOp, opWaitIdle]
    split
    · rfl
    · split
      · rfl
      · split <;> rfl
  | stageW st => simp only [microOp, opStageW]; split <;> rfl
  | _ => rfl

theorem microOp_cbufSize (op : MicroOp) (q : List MicroOp) (s : State) : (microOp op q s).cbufSize = s.cbufSize :=
  congrArg (fun p => p.cbufSize) (microOp_params op q s)

theorem microOp_reqValid (op : MicroOp) (q : List MicroOp) (s : State) : (microOp op q s).reqValid = s.reqValid := by
  cases op with
  | waitIdle =>
    simp only [microOp, opWaitIdle]
    split
    · rfl
    · split
      · rfl
      · split <;> rfl
  | stageW st => simp only [microOp, opStageW]; split <;> rfl
  | _ => rfl

/-! ### The queue (R37) -/

/-- A queue that ends in its `DONE`: the head ends it and stands alone, or does not and the rest ends it. -/
theorem queueEnds_cons {op : MicroOp} {q : List MicroOp} (h : queueEnds (op :: q) = true) :
    (isFinal op = true ∧ q = []) ∨ (isFinal op = false ∧ queueEnds q = true) := by
  cases q with
  | nil => exact .inl ⟨h, rfl⟩
  | cons a q => simpa [queueEnds] using h

theorem queueEnds_append {ops q : List MicroOp} (h : ∀ op ∈ ops, isFinal op = false) (hq : queueEnds q = true) :
    queueEnds (ops ++ q) = true := by
  induction ops with
  | nil => exact hq
  | cons op ops ih =>
    have h1 := ih (fun o ho => h o (by simp [ho]))
    have h2 := h op (by simp)
    rw [List.cons_append]
    cases hh : ops ++ q with
    | nil => rw [hh] at h1; simp [queueEnds] at h1
    | cons a r => rw [hh] at h1; simp [queueEnds, h2, h1]

theorem isFinal_of_isLineOp {op : MicroOp} (h : isLineOp op = true) : isFinal op = false := by
  cases op <;> simp_all [isLineOp, isFinal]

theorem operandFits_of_isLineOp {op : MicroOp} (h : isLineOp op = true) (n : Nat) : operandFits n op = true := by
  cases op <;> simp_all [isLineOp, operandFits]

/-- The queue after a micro-op that does not end the program. -/
theorem microOp_seq_of_not_final {op : MicroOp} (h : isFinal op = false) (q : List MicroOp) (s : State) :
    (microOp op q s).seq = .run q ∨
    (op = .waitIdle ∧ ((microOp op q s).seq = .run (.waitIdle :: q) ∨
      (microOp op q s).seq = .run [.done .endpointTimeout])) := by
  cases op with
  | waitIdle =>
    simp only [microOp, opWaitIdle]
    split
    · exact .inl rfl
    · refine .inr ⟨trivial, ?_⟩
      split
      · exact .inl rfl
      · split
        · exact .inl rfl
        · exact .inr rfl
  | stageW st => simp [isFinal] at h
  | stageE => simp [isFinal] at h
  | done st => simp [isFinal] at h
  | _ => exact .inl rfl

/-- The queue after a micro-op that ends the program: none, or line micro-ops and their `DONE` (R144, R145, R147). -/
theorem microOp_seq_of_final {op : MicroOp} (h : isFinal op = true) (q : List MicroOp) (s : State) :
    (∃ st, op = .done st ∧ (microOp op q s).seq = .idle) ∨
    (∃ ops st, (∀ o ∈ ops, isLineOp o = true) ∧ st ≠ .endpointTimeout ∧ st ≠ .unknownCommand ∧
      (microOp op q s).seq = .run (ops ++ .done st :: q)) := by
  cases op with
  | done st => exact .inl ⟨st, rfl, rfl⟩
  | stageE =>
    refine .inr ⟨uopsEnable s.payloadCode, enableStatus s.payloadCode, uopsEnable_lineOps _, ?_, ?_, rfl⟩ <;>
      (unfold enableStatus; split <;> simp)
  | stageW st =>
    simp only [microOp, opStageW]
    split
    · exact .inr ⟨[], .invalidBitCount, by simp, by simp, by simp, rfl⟩
    · exact .inr ⟨_, .ok, uopsWrite_lineOps _ _ _ _, by simp, by simp, rfl⟩
  | _ => simp [isFinal] at h

/-- A micro-op whose operand fits the buffer runs (R37 (b), R51). -/
theorem runStep_of_fits {op : MicroOp} {s : State} (h : operandFits s.cbufSize op = true) (q : List MicroOp) :
    runStep s (op :: q) = .next (microOp op q s) := by
  unfold runStep
  cases op <;> simp_all [storeOffset, operandFits]

/-- Every program ends in its `DONE` (R37 (c), R141). -/
theorem queueEnds_program (i : Instr) : queueEnds (program i) = true := by cases i <;> rfl

/-- Every operand of every program fits the smallest buffer (R9, R51). -/
theorem operandFits_program (i : Instr) {n : Nat} (h : 5 ≤ n) : ∀ op ∈ program i, operandFits n op = true := by
  have h5 : ∀ op ∈ program i, operandFits 5 op = true := by
    rw [← List.all_eq_true]; cases i <;> rfl
  intro op ho
  have := h5 op ho
  cases op <;> simp_all [operandFits] <;> omega

/-! ### Runs as steps of `ENGINE` -/

theorem engineSteps_of_next {s t : State} (h : engineStep s = .next t) (k : Nat) :
    engineSteps (k + 1) s = engineSteps k t := by rw [engineSteps, h]

/-- A run of plain micro-ops, each a step (R37 (b)). -/
theorem engineSteps_plain {ops : List MicroOp} (hp : ∀ op ∈ ops, isPlain op = true) (q : List MicroOp) (k : Nat) :
    ∀ s : State, (∀ op ∈ ops, ∀ a, storeOffset op = some a → a < s.cbufSize) →
      engineSteps (ops.length + k) (s.resume (ops ++ q)) = engineSteps k ((acts ops s).resume q) := by
  induction ops with
  | nil => intro s _; simp
  | cons op ops ih =>
    intro s hf
    have h1 : (op :: ops).length + k = (ops.length + k) + 1 := by simp only [List.length_cons]; omega
    have hop := hp op (by simp)
    have e : engineStep (s.resume (op :: ops ++ q)) = .next ((act op s).resume (ops ++ q)) := by
      have e1 : engineStep (s.resume (op :: ops ++ q)) = runStep (s.resume (op :: ops ++ q)) (op :: (ops ++ q)) := rfl
      rw [e1]
      have hh := hf op (by simp)
      cases hso : storeOffset op with
      | none => simp only [runStep, hso]; rw [microOp_plain hop, act_resume, State.resume_resume]
      | some a =>
        simp only [runStep, hso]
        rw [if_pos (by simpa using hh a hso), microOp_plain hop, act_resume, State.resume_resume]
    rw [h1, engineSteps_of_next e, ih (fun o ho => hp o (by simp [ho])) (act op s) (fun o ho a => by
      rw [show (act op s).cbufSize = s.cbufSize from congrArg (fun p => p.cbufSize) (act_params op s)]
      exact hf o (by simp [ho]) a), acts_cons]

end Sys2Proof.Machine
end

