-- ==== Sys2Proof/Tests/Slice0.lean ====
section
/-! SUPPORT. Tests of the model against words, examples and vectors of the spec (`30_encoding.md`, `95_test_vectors.md`), and
for each statement with hypotheses a state that meets them all. -/

open Sys2Proof Sys2Proof.Machine

namespace Sys2Proof.Tests

/-! ### Small states -/

/-- After reset, the given bytes at offset 0 on. -/
def withBytes (bs : List Byte) : State := { State.reset with cbuf := Memory.writeList [] 0 bs }

/-- After reset, the DUT about to give the given answers. -/
def answering (bs : List Bool) : State := { State.reset with dutAnswers := bs }

/-- After reset, the endpoint busy. -/
def busy : State := { State.reset with epBusy := true }

/-- After reset, the given queue running. -/
def running (q : List MicroOp) : State := { State.reset with seq := .run q }

/-- The defaults of rule R9 with a strict bit count. -/
def strictParams : Params := { strictBitCount := true, resetPort := 0, ok := by decide }

/-- The defaults of rule R9 with a limit on the wait. -/
def limitParams (n : Nat) : Params := { epWaitLimit := some n, resetPort := 0, ok := by rfl }

/-- After reset under the strict parameter, the given bytes at offset 0 on. -/
def strictBytes (bs : List Byte) : State := { State.resetWith strictParams with cbuf := Memory.writeList [] 0 bs }

/-- After reset under a limit, the endpoint busy. -/
def busyLimit (n : Nat) : State := { State.resetWith (limitParams n) with epBusy := true }

/-- The defaults with `lateFill`. -/
def lateParams : Params := { lateFill := true, resetPort := 0, ok := by decide }

/-- After reset with `lateFill`, the endpoint busy, the given queue running. -/
def lateRunning (q : List MicroOp) : State := { State.resetWith lateParams with epBusy := true, seq := .run q }

/-- A property of the next state; false where there is none. -/
def after (o : Host.Outcome State Fault Refusal) (p : State → Bool) : Bool :=
  match o with
  | .next t => p t
  | .fault _ => false
  | .refused _ => false

/-- The levels `(DATA, CLK, LE, TRIG, CE, PDRF)` of the vectors. -/
def levels (s : State) : List Bool := [.data, .clk, .le, .trig, .ce, .pdrf].map s.line

/-! ### Well-formedness and decoding (`30_encoding.md`) -/

/-- R86: `UNKNOWN` with the code of a defined command is ill-formed, in each direction. -/
theorem test_wellFormed_refuses : (Instr.unknown .download 0xDD).wellFormed = false ∧
    (Instr.unknown .download 0xD9).wellFormed = false ∧ (Instr.unknown .download 0xDF).wellFormed = false ∧
    (Instr.unknown .download 0xD8).wellFormed = false ∧ (Instr.unknown .upload 0xDD).wellFormed = false ∧
    (Instr.unknown .upload 0xDF).wellFormed = false := by decide

/-- R86: type `0x40` over code `0xDD`, bit by bit. -/
theorem test_decode_spiWr : decode 0b0100000011011101 = .instr .spiWr := by decide

/-- R86: type `0xC0` over code `0xDD`. -/
theorem test_decode_spiRd : decode 0b1100000011011101 = .instr .spiRd := by decide

/-- R86: type `0x40` over code `0xD9`. -/
theorem test_decode_trigWr : decode 0b0100000011011001 = .instr .trigWr := by decide

/-- R86: code `0xDF` with bit 15 clear and set. -/
theorem test_decode_statRd : decode 0b0100000011011111 = .instr (.statRd .download) ∧
    decode 0b1100000011011111 = .instr (.statRd .upload) := by decide

/-- R86: type `0x40` over code `0xD8`. -/
theorem test_decode_cepdWr : decode 0b0100000011011000 = .instr .cepdWr := by decide

/-- R87, R88, vectors V20 to V23. -/
theorem test_decode_unknown : decode 0b0100000000000000 = .instr (.unknown .download 0x00) ∧
    decode 0b1100000011011001 = .instr (.unknown .upload 0xD9) ∧
    decode 0b1100000011011000 = .instr (.unknown .upload 0xD8) ∧
    decode 0b0100000011011110 = .instr (.unknown .download 0xDE) := by decide

/-- R82, vector V24: types `0x41` and `0x80`. -/
theorem test_decode_rejects : decode 0x41DD = .rejected (.notSelected 0x41) ∧
    decode 0x80DD = .rejected (.notSelected 0x80) := by decide

/-- The table's numbering: the match words of the fourteen rows. -/
theorem test_decodeTableWord : decodeTableWord 16 0x40DD = some .spiWr ∧
    decodeTableWord 16 0xC0D8 = some (.unknown .upload 0xD8) ∧ decodeTableWord 16 0x41DD = none := by decide

/-- The word placed by `withFetchWord` is the one the next step runs. -/
theorem test_withFetchWord : after (step (State.reset.withFetchWord 16 0xC0D8)) (fun t =>
    t.trace == [.request 0xC0 0xD8, .arm 0, .done .unknownCommand]) = true := by decide

/-! ### Commands, by vector -/

/-- Vector V2: `SPI.WR 0x6, 3`. -/
theorem test_spiWr_v2 : after (exec .spiWr (withBytes [0x06, 0, 0, 0, 0x03])) (fun t =>
    t.trace == [.request 0x40 0xDD, .idle, .loadWord 6 3, .down .le, .up .data, .up .clk, .hold, .down .clk, .hold,
      .up .data, .up .clk, .hold, .down .clk, .hold, .down .data, .up .clk, .hold, .down .clk, .hold,
      .hold, .up .le, .hold, .down .le, .done .ok] && levels t == [false, false, false, false, false, false]) = true := by
  decide

/-- Vector V5: `SPI.WR 0xFFFFFFFF, 0` only pulses the strobe. -/
theorem test_spiWr_v5 : after (exec .spiWr (withBytes [0xFF, 0xFF, 0xFF, 0xFF, 0x00])) (fun t =>
    t.trace == [.request 0x40 0xDD, .idle, .loadWord 0xFFFFFFFF 0, .down .le, .hold, .up .le, .hold, .down .le,
      .done .ok]) = true := by decide

/-- Vector V6: `TRIG.WR 0x1, 1`, no event of `LE`. -/
theorem test_trigWr_v6 : after (exec .trigWr (withBytes [0x01, 0, 0, 0, 0x01])) (fun t =>
    t.trace == [.request 0x40 0xD9, .idle, .loadWord 1 1, .down .trig, .up .data, .up .clk, .hold, .down .clk, .hold,
      .hold, .up .trig, .hold, .down .trig, .done .ok] &&
    levels t == [true, false, false, false, false, false]) = true := by decide

/-- Vector V9: count 0 under the strict parameter, for the other write. -/
theorem test_trigWr_strict : after (exec .trigWr (strictBytes [0xFF, 0xFF, 0xFF, 0xFF, 0x00])) (fun t =>
    t.trace == [.request 0x40 0xD9, .idle, .loadWord 0xFFFFFFFF 0, .done .invalidBitCount]) = true := by decide

/-- Vector V12: `SPI.RD` with answers `1,0,1,0,0,1,0,1`. -/
theorem test_spiRd_v12 : after (exec .spiRd (answering [true, false, true, false, false, true, false, true])) (fun t =>
    t.cbuf == [(0, 0xA5), (1, 0), (2, 0)] && t.replyLen == 2 && t.replyBytes == [0xA5, 0] && t.acc == 0x00A5 &&
    t.trace.length == 48 && !t.line .clk) = true := by decide

/-- Vector V14: the first bit sampled is bit 7. -/
theorem test_spiRd_v14 : after (exec .spiRd (answering [true, false, false, false, false, false, false, false]))
    (fun t => t.replyBytes == [0x80, 0]) = true := by decide

/-- Vector V18: `STAT.RD` with answers `1,0` then `1,1,0,0,0,0,1,1`. -/
theorem test_statRd_v18 :
    after (exec (.statRd .upload) (answering [true, false, true, true, false, false, false, false, true, true])) (fun t =>
      t.replyBytes == [0x02, 0xC3] && t.trace.length == 58 && t.acc == 0x00C3) = true := by decide

/-- Vector V19b: as a download, answers `0,1` then `0,0,0,0,0,0,0,1`. -/
theorem test_statRd_v19b :
    after (exec (.statRd .download) (answering [false, true, false, false, false, false, false, false, false, true]))
      (fun t => t.replyBytes == [0x01, 0x01] && t.trace.head? == some (.request 0x40 0xDF)) = true := by decide

/-- Vector V32: `CEPD.WR 0x0C`. -/
theorem test_cepdWr_v32 : after (exec .cepdWr (withBytes [0x0C])) (fun t =>
    t.trace == [.request 0x40 0xD8, .idle, .loadCode 0x0C, .down .ce, .down .pdrf, .up .ce, .done .ok] &&
    levels t == [false, false, false, false, true, false]) = true := by decide

/-- Vector V35: `CEPD.WR 0x08` is unmapped, both lines high before. -/
theorem test_cepdWr_v35 : after (exec .cepdWr (((withBytes [0x08]).raiseLine .ce).raiseLine .pdrf)) (fun t =>
    t.trace == [.request 0x40 0xD8, .idle, .loadCode 0x08, .down .ce, .down .pdrf, .done .unknownEnableCode] &&
    levels t == [false, false, false, false, false, false]) = true := by decide

/-- Vector V20: an unknown code leaves the lines and ends with a zero-length reply. -/
theorem test_unknown_v20 : after (exec (.unknown .download 0x00) (State.reset.raiseLine .ce)) (fun t =>
    t.trace == [.request 0x40 0x00, .arm 0, .done .unknownCommand] && t.replyLen == 0 &&
    levels t == [false, false, false, false, true, false]) = true := by decide

/-- Vector V28: `UNKNOWN` does not wait for the endpoint. -/
theorem test_unknown_v28 : after (exec (.unknown .download 0x00) busy) (fun t => t.seq == .idle) = true := by decide

/-- Vector V27: `SPI.WR` under a limit of 3, the endpoint never idle. -/
theorem test_wait_v27 : after (exec .spiWr (busyLimit 3)) (fun t =>
    t.trace == [.request 0x40 0xDD, .poll, .poll, .poll, .poll, .done .endpointTimeout] && t.waitCnt == 3) = true := by
  decide

/-- Vector V26: without a limit the wait records no event and stays. -/
theorem test_wait_v26 : after (engineStep { busy with seq := .run [.waitIdle, .stageW .le] }) (fun t =>
    t.trace == [] && t.seq == .run [.waitIdle, .stageW .le]) = true := by decide

/-! ### Micro-ops, by vector and example -/

/-- Vector V39: `SET DATA` keeps bits 7 and 6. -/
theorem test_set_v39 : (0b11000000#8 ||| (1#8 <<< 0)) = 0b11000001#8 ∧
    after (engineStep (running [.set .data])) (fun t => t.portOut.toNat == 1 && t.trace == [.up .data]) = true := by
  decide

/-- Vector V42: `CLR CLK` of a low clock still records its event. -/
theorem test_clr_v42 : after (engineStep (running [.clr .clk]))
    (fun t => t.portOut.toNat == 0 && t.trace == [.down .clk]) = true := by decide

/-- R122, example: `ACC = 0x0005`, data-in high, gives `0x000B`. -/
theorem test_shin_example : after (engineStep { running [.shin] with acc := 0x0005, dutAnswers := [true] })
    (fun t => t.acc == 0x000B && t.trace == [.sample true]) = true := by decide

/-- R123, example: `ACC = 0x01A5`: `STH 1` writes `0x01`. -/
theorem test_sth_example : after (engineStep { running [.sth 1] with acc := 0x01A5 })
    (fun t => t.cbuf == [(1, 0x01)] && t.trace == [.store 1 0x01]) = true := by decide

/-- R145, example: code `0x1C`. -/
theorem test_stageE_example : after (engineStep { withBytes [0x1C] with seq := .run [.stageE] })
    (fun t => t.seq == .run [.clr .ce, .clr .pdrf, .set .ce, .set .pdrf, .done .ok]) = true := by decide

/-! ### States that meet the hypotheses of the statements, one theorem for each statement -/

theorem witness_DecodeOfEncodeIsIdentity : (Instr.unknown .upload 0xD9).wellFormed = true ∧
    (Instr.unknown .download 0xFF).wellFormed = true ∧ (Instr.statRd .upload).wellFormed = true := by decide

theorem witness_EncodeOfDecodeIsIdentity : decode 0xC0DF = .instr (.statRd .upload) := by decide

theorem witness_StepRunsDecodedRequest : ∃ s : State, s.schedule = [] ∧ s.seq = .idle ∧ s.reqValid = true ∧
    decodeHeader s.reqType s.reqCode = .instr .spiWr := ⟨State.reset.withRequest 0x40DD, by decide⟩

theorem witness_OtherRequestTypesRefused : ∀ cw : Half, cw = 0x40DD ∨ cw = 0xC000 ∨ cw = 0x41DD ∨ cw = 0x3FDD →
    (State.reset.withRequest cw).seq = .idle ∧ (State.reset.withRequest cw).reqValid = true ∧
    (State.reset.withRequest cw).schedule = [] := fun _ _ => ⟨rfl, rfl, rfl⟩

theorem witness_StepOtherwise : ((running [.hold]).schedule = [] ∧ (running [.hold]).seq = .run [.hold]) ∧
    (State.reset.schedule = [] ∧ State.reset.seq = .idle ∧ State.reset.reqValid = false) ∧
    ({ State.reset with schedule := [.engine] } : State).schedule = [.engine] := by decide

theorem witness_SetDrivesLineHigh : (running [.set .pdrf, .done .ok]).seq = .run [.set .pdrf, .done .ok] := rfl

theorem witness_ClrDrivesLineLow : (running [.clr .ce, .done .ok]).seq = .run [.clr .ce, .done .ok] := rfl

theorem witness_OtherPortBitsKept : ∃ t, engineStep (running [.set .data]) = .next t ∧
    ∀ l, 7 ≠ (running [.set .data]).params.pin l := ⟨_, rfl, by rintro (_ | _ | _ | _ | _ | _) <;> decide⟩

theorem witness_HoldChangesOnlyTrace : (running [.hold]).seq = .run [.hold] := rfl

theorem witness_AclrClearsAccumulator : (running [.aclr]).seq = .run [.aclr] := rfl

theorem witness_ShinShiftsSampleIn : (running [.shin]).seq = .run [.shin] := rfl

theorem witness_StoresWriteAccumulatorBytes : 63 < (running [.stl 63]).cbufSize ∧ 0 < (running [.sth 0]).cbufSize ∧
    (running [.stl 63]).seq = .run [.stl 63] ∧ (running [.sth 0]).seq = .run [.sth 0] := by decide

theorem witness_StoreBeyondBufferFaults : (running [.stl 64]).cbufSize ≤ 64 ∧ (running [.stl 64]).seq = .run [.stl 64] ∧
    (running [.sth 65]).cbufSize ≤ 65 ∧ (running [.sth 65]).seq = .run [.sth 65] := by decide

/-- The wait passing, held, below the limit and at the limit. -/
theorem witness_WaitIdleProceedsOrHolds :
    ((running [.waitIdle]).seq = .run [.waitIdle] ∧ (running [.waitIdle]).epBusy = false) ∧
    (∃ s : State, s.seq = .run [.waitIdle] ∧ s.epBusy = true ∧ s.params.epWaitLimit = none) ∧
    (∃ s : State, s.seq = .run [.waitIdle] ∧ s.epBusy = true ∧ s.params.epWaitLimit = some 3 ∧ s.waitCnt < 3) ∧
    (∃ s : State, s.seq = .run [.waitIdle] ∧ s.epBusy = true ∧ s.params.epWaitLimit = some 3 ∧ s.waitCnt = 3) :=
  ⟨by decide, ⟨{ busy with seq := .run [.waitIdle] }, by decide⟩,
    ⟨{ busyLimit 3 with seq := .run [.waitIdle] }, by decide⟩,
    ⟨{ busyLimit 3 with seq := .run [.waitIdle], waitCnt := 3 }, by decide⟩⟩

theorem witness_StageWriteLoadsAndExpands : (running [.stageW .le]).seq = .run [.stageW .le] ∧
    (running [.stageW .trig]).seq = .run [.stageW .trig] := by decide

theorem witness_StageEnableLoadsAndExpands : (running [.stageE]).seq = .run [.stageE] := rfl

theorem witness_ArmSetsReplyLength : (running [.arm 2]).seq = .run [.arm 2] := rfl

theorem witness_DoneReturnsToIdle : (running [.done .ok]).seq = .run [.done .ok] := rfl

/-- A request of each type, one of another type, and none. -/
theorem witness_AcceptanceStartsProgram :
    (∀ cw : Half, cw = 0x40DD ∨ cw = 0xC0DF ∨ cw = 0x41DD → (State.reset.withRequest cw).seq = .idle ∧
      (State.reset.withRequest cw).reqValid = true) ∧
    (State.reset.seq = .idle ∧ State.reset.reqValid = false) := ⟨fun _ _ => ⟨rfl, rfl⟩, rfl, rfl⟩

/-- Counts 0, 32, 33 and 255 with the default parameters, and 1 and 32 with the strict one. -/
theorem witness_WriteCommandResult :
    (∀ n : Byte, n = 0 ∨ n = 32 ∨ n = 33 ∨ n = 255 → (withBytes [1, 2, 3, 4, n]).epBusy = false ∧
      (withBytes [1, 2, 3, 4, n]).refusesCount (withBytes [1, 2, 3, 4, n]).payloadCount = false) ∧
    (∀ n : Byte, n = 1 ∨ n = 32 → (strictBytes [1, 2, 3, 4, n]).epBusy = false ∧
      (strictBytes [1, 2, 3, 4, n]).refusesCount (strictBytes [1, 2, 3, 4, n]).payloadCount = false) := by decide

/-- Counts 1 and 32. -/
theorem witness_WriteClocksEveryBitOnce : ∀ n : Byte, n = 1 ∨ n = 32 → (withBytes [1, 2, 3, 4, n]).epBusy = false ∧
    1 ≤ (withBytes [1, 2, 3, 4, n]).payloadCount.toNat ∧ (withBytes [1, 2, 3, 4, n]).payloadCount.toNat ≤ 32 := by decide

/-- Counts 0, 33 and 255, `CLK` low. -/
theorem witness_CountGivesNumberOfPulses : ∀ n : Byte, n = 0 ∨ n = 33 ∨ n = 255 →
    (withBytes [1, 2, 3, 4, n]).epBusy = false ∧
    (withBytes [1, 2, 3, 4, n]).refusesCount (withBytes [1, 2, 3, 4, n]).payloadCount = false ∧
    (withBytes [1, 2, 3, 4, n]).line .clk = false := by decide

theorem witness_HighClockLosesFirstBit : ∃ s : State, s.epBusy = false ∧ s.refusesCount s.payloadCount = false ∧
    s.line .clk = true := ⟨(withBytes [1, 2, 3, 4, 8]).raiseLine .clk, by decide⟩

/-- Counts 0, 33 and 255 with the strict parameter. -/
theorem witness_StrictCountRefused : ∀ n : Byte, n = 0 ∨ n = 33 ∨ n = 255 →
    (strictBytes [1, 2, 3, 4, n]).epBusy = false ∧ (strictBytes [1, 2, 3, 4, n]).params.strictBitCount = true ∧
    ((strictBytes [1, 2, 3, 4, n]).payloadCount.toNat = 0 ∨ 32 < (strictBytes [1, 2, 3, 4, n]).payloadCount.toNat) := by
  decide

theorem witness_SpiReadResult : State.reset.epBusy = false := rfl

theorem witness_StatusReadResult : (answering [true, false]).epBusy = false := rfl

/-- No bit and 16 bits, the first word and the last that fits 64 bytes. -/
theorem witness_ReadWordStoresThreeBytes :
    ((0 : Nat) ≤ 16 ∧ 3 * 0 + 2 < (running (readWord 0 0 ++ [.done .ok])).cbufSize ∧
      (running (readWord 0 0 ++ [.done .ok])).seq = .run (readWord 0 0 ++ [.done .ok])) ∧
    ((16 : Nat) ≤ 16 ∧ 3 * 20 + 2 < (running (readWord 16 20 ++ [.done .ok])).cbufSize ∧
      (running (readWord 16 20 ++ [.done .ok])).seq = .run (readWord 16 20 ++ [.done .ok])) := by decide

theorem witness_StatusPulsesAreUniform : State.reset.epBusy = false ∧
    ∃ t, exec (.statRd .upload) State.reset = .next t := ⟨rfl, _, rfl⟩

theorem witness_HostReceivesReadByte : (State.reset.withRequest 0xC0DD).epBusy = false ∧
    (State.reset.withRequest 0xC0DD).reqType = 0xC0 := by decide

theorem witness_TakeReplySendsReplyBytes : ∃ s : State, s.seq = .idle ∧ s.reqValid = false ∧ s.reqType = 0xC0 :=
  ⟨{ State.reset with reqType := 0xC0, replyLen := 2 }, by decide⟩

/-- Each row of rule R84, the last with an unmapped code. -/
theorem witness_EnableCommandResult : ∀ c : Byte, c = 0x04 ∨ c = 0x14 ∨ c = 0x0C ∨ c = 0x1C ∨ c = 0x3C →
    (withBytes [c]).epBusy = false ∧ (withBytes [c]).cbufRead 0 = c := by decide

theorem witness_BusyEndpointHangs : waitsForIdle (.statRd .download) = true ∧ busy.epBusy = true ∧
    busy.params.epWaitLimit = none ∧ busy.schedule = [] := by decide

theorem witness_HeldCommandResumes : waitsForIdle .cepdWr = true ∧ busy.epBusy = true ∧
    busy.params.epWaitLimit = none := by decide

/-- Limits 0 and 3. -/
theorem witness_BusyEndpointTimesOut : waitsForIdle .spiRd = true ∧ (busyLimit 0).epBusy = true ∧
    (busyLimit 0).params.epWaitLimit = some 0 ∧ (busyLimit 3).epBusy = true ∧
    (busyLimit 3).params.epWaitLimit = some 3 := by decide

theorem witness_WriteCommandFrame : (∃ t, exec (writeCommand .le) (withBytes [1, 0, 0, 0, 1]) = .next t) ∧
    (∃ t, exec (writeCommand .trig) busy = .next t) := ⟨⟨_, rfl⟩, ⟨_, rfl⟩⟩

theorem witness_ReadCommandFrame : (∃ t, exec .spiRd State.reset = .next t) ∧
    (∃ t, exec (.statRd .download) State.reset = .next t) := ⟨⟨_, rfl⟩, ⟨_, rfl⟩⟩

theorem witness_EnableCommandFrame : ∃ t, exec .cepdWr (withBytes [0x1C]) = .next t := ⟨_, rfl⟩

theorem witness_CommandIsEngineSteps : ∃ s : State, s.seq = .idle ∧ s.reqValid = true ∧
    decodeHeader s.reqType s.reqCode = .instr .trigWr := ⟨State.reset.withRequest 0x40D9, by decide⟩

/-- The invariant holds of a held command and of a command inside a clock pulse. -/
theorem witness_EveryStepKeepsInvariant :
    (running [.waitIdle, .stageW .le]).Inv ∧ ((running [.clr .clk, .done .ok]).raiseLine .clk).Inv ∧
    ∃ t, step ((running [.clr .clk, .done .ok]).raiseLine .clk) = .next t := by
  refine ⟨⟨by decide, rfl, by decide, by decide, by decide, (fun h => nomatch h), ?_⟩,
    ⟨by decide, rfl, by decide, by decide, by decide, (fun h => nomatch h), ?_⟩, _, rfl⟩
  · rintro q h
    cases h
    exact ⟨by decide, by decide, by decide, fun _ => by unfold State.atRest; decide, by decide⟩
  · rintro q h
    cases h
    exact ⟨by decide, by decide, by decide, fun h => by simp at h, by decide⟩

theorem witness_InvariantAtReset : ∀ l ∈ restLines, Params.default.resetPort.getLsbD (Params.default.pin l) = false := by
  decide

/-- The last step of a command, from a state of the invariant. -/
theorem witness_IdleLinesLow : (running [.done .ok]).Inv ∧
    ∃ t, step (running [.done .ok]) = .next t ∧ t.seq = .idle := by
  refine ⟨⟨by decide, rfl, by decide, by decide, by decide, (fun h => nomatch h), ?_⟩, _, rfl, rfl⟩
  rintro q h
  cases h
  exact ⟨by decide, by decide, by decide, fun h => by simp at h, by decide⟩

/-- A store at the last offset, in a state of the invariant. -/
theorem witness_NoStepFaults : (running [.stl 63, .done .ok]).Inv := by
  refine ⟨by decide, rfl, by decide, by decide, by decide, (fun h => nomatch h), ?_⟩
  rintro q h
  cases h
  exact ⟨by decide, by decide, by decide, fun h => by simp at h, by decide⟩

theorem witness_CommandsDriveOnlyTheirLines : (∃ t, exec .spiRd State.reset = .next t) ∧ writesLine .spiRd .data = false ∧
    (∃ t, exec .spiWr (withBytes [1, 0, 0, 0, 1]) = .next t) ∧ writesLine .spiWr .trig = false :=
  ⟨⟨_, rfl⟩, rfl, ⟨_, rfl⟩, rfl⟩

theorem witness_DefaultStatuses : State.reset.params.strictBitCount = false ∧ State.reset.params.epWaitLimit = none ∧
    ∃ t, exec .cepdWr State.reset = .next t := ⟨rfl, rfl, _, rfl⟩

theorem witness_ParametersNeverChange : ∃ t, step State.reset = .next t := ⟨_, rfl⟩

/-- A reset inside a clock pulse. -/
theorem witness_ResetEventAtAnyTime : ∃ s : State, s.schedule = [.reset] ∧ s.seq = .run [.clr .clk] ∧ s.line .clk = true :=
  ⟨{ (running [.clr .clk]).raiseLine .clk with schedule := [.reset] }, by decide⟩

/-- No payload, a payload as long as its length says and as long as the buffer, and a request that overlaps. -/
theorem witness_RequestPresented :
    (([] : List Byte).length ≤ (0 : Half).toNat ∧ ([] : List Byte).length ≤ State.reset.cbufSize) ∧
    ((List.replicate 64 (0 : Byte)).length ≤ (64 : Half).toNat ∧
      (List.replicate 64 (0 : Byte)).length ≤ State.reset.cbufSize) ∧
    (State.reset.seq = .idle ∧ State.reset.reqValid = false) ∧
    ¬ ((State.reset.withRequest 0x40DD).seq = .idle ∧ (State.reset.withRequest 0x40DD).reqValid = false) := by decide

/-- One step after the passed wait. -/
theorem witness_EngineOwnsBufferUntilDone : ∃ (s t u : State), waitsForIdle .spiRd = true ∧
    s.seq = .run (program .spiRd) ∧ s.epBusy = false ∧ engineStep s = .next t ∧ engineSteps 1 t = .next u ∧
    ∀ j v, j ≤ 1 → engineSteps j t = .next v → v.seq ≠ .idle := by
  refine ⟨running (program .spiRd), _, _, rfl, rfl, rfl, rfl, rfl, ?_⟩
  intro j v hj h
  interval_cases j <;> cases h <;> decide

/-- Each situation in which the flag may be set: idle, at the wait, in `UNKNOWN`, after the wait was given up. -/
theorem witness_UsbcDrivesBusyFlag : State.reset.seq = .idle ∧
    (∃ q, (running [.waitIdle, .stageE]).seq = .run (.waitIdle :: q)) ∧
    (running [.arm 0, .done .unknownCommand]).seq = .run [.arm 0, .done .unknownCommand] ∧
    (running [.done .unknownCommand]).seq = .run [.done .unknownCommand] ∧
    (running [.done .endpointTimeout]).seq = .run [.done .endpointTimeout] := ⟨rfl, ⟨_, rfl⟩, rfl, rfl, rfl⟩

/-- The first byte in preparation, the last byte under a busy endpoint with a request pending, and the four running queues
that have passed no wait, with `lateFill` and without it. -/
theorem witness_UsbcWritesPayloadByte :
    (0 < State.reset.cbufSize ∧ State.reset.seq = .idle ∧ State.reset.reqValid = false) ∧
    (∃ s : State, 63 < s.cbufSize ∧ s.seq = .idle ∧ s.reqValid = true ∧ s.epBusy = true) ∧
    (∀ q, q = [.waitIdle, .stageE] ∨ q = [.arm 0, .done .unknownCommand] ∨ q = [.done .unknownCommand] ∨
        q = [.done .endpointTimeout] →
      (63 < (lateRunning q).cbufSize ∧ (lateRunning q).epBusy = true ∧ (lateRunning q).seq = .run q ∧
        (lateRunning q).params.lateFill = true) ∧
      (∃ s : State, 63 < s.cbufSize ∧ s.epBusy = true ∧ s.seq = .run q ∧ s.params.lateFill = false)) :=
  ⟨by decide, ⟨{ busy with reqValid := true }, by decide⟩, fun q _ =>
    have h : 63 < 64 := by decide
    ⟨⟨h, rfl, rfl, rfl⟩, ⟨{ busy with seq := .run q }, h, rfl, rfl, rfl⟩⟩⟩

/-- A move that writes a byte, and one while a command runs, without `lateFill` and with it, the endpoint idle. -/
theorem witness_UsbcWritesNothingOfEngine :
    (∃ t, usbcStep (.writeByte 0 0xA5) State.reset = .next t) ∧
    (∃ s t : State, usbcStep .clearBusy s = .next t ∧ s.seq ≠ .idle ∧ s.params.lateFill = false ∧ s.epBusy = true) ∧
    (∃ s t : State, usbcStep .clearBusy s = .next t ∧ s.seq ≠ .idle ∧ s.params.lateFill = true ∧ s.epBusy = false) :=
  ⟨⟨_, rfl⟩, ⟨{ busy with seq := .run [.waitIdle, .stageE] }, _, rfl, by decide⟩,
    ⟨{ lateRunning [.hold, .done .ok] with epBusy := false }, _, rfl, by decide⟩⟩

/-- R16: from reset a held command is not written under. -/
theorem test_heldBuffer_closed : usbcStep (.writeByte 0 0xA5) { busy with seq := .run (program .spiWr) } =
    .refused .bufferOwned := by rfl

/-- R183: from reset a scheduled move makes the endpoint busy. -/
theorem test_setBusy_from_reset : after (step { State.reset with schedule := [.usbc .setBusy] })
    (fun t => t.epBusy && t.schedule.isEmpty) = true := by decide

end Sys2Proof.Tests
end

section
/-! PROOFS. A run of micro-ops as steps of `ENGINE` (R37): queues that never fault, `drive` as an iteration of `engineStep`,
and where a command comes to a stand. -/

namespace Sys2Proof.Machine

/-! ### Queues `ENGINE` runs without a fault (R37 (c), R51) -/

/-- A running block's queue ends in its `DONE`, and its operands fit the buffer: the part of `QueueInv` that `engineStep`
needs so as not to fault. It says nothing of the lines, so it holds of a command accepted in any state. -/
def State.QueueRuns (s : State) : Prop :=
  ∀ q, s.seq = .run q → queueEnds q = true ∧ ∀ op ∈ q, operandFits s.cbufSize op = true

theorem State.queueRuns_of_idle {s : State} (h : s.seq = .idle) : s.QueueRuns :=
  fun _ hq => Seq.noConfusion (h.symm.trans hq)

theorem State.queueRuns_of_run {s : State} {q : List MicroOp} (hs : s.seq = .run q) (he : queueEnds q = true)
    (hf : ∀ op ∈ q, operandFits s.cbufSize op = true) : s.QueueRuns := by
  intro q' hq'
  obtain rfl : q = q' := Seq.run.inj (hs.symm.trans hq')
  exact ⟨he, hf⟩

/-- Every accepted program runs without a fault, since the buffer has room for five bytes (R9, R141). -/
theorem State.queueRuns_accept (s : State) (ty c : Byte) (i : Instr) : (s.accept ty c (program i)).QueueRuns :=
  queueRuns_of_run rfl (queueEnds_program i) (operandFits_program i s.params.five_le_cbufSize)

/-- A micro-op leaves a queue that runs without a fault (R37 (b)). -/
theorem microOp_queueRuns {op : MicroOp} {q : List MicroOp} {s : State} (he : queueEnds (op :: q) = true)
    (hf : ∀ o ∈ op :: q, operandFits s.cbufSize o = true) : (microOp op q s).QueueRuns := by
  have hsize := microOp_cbufSize op q s
  rcases queueEnds_cons he with ⟨hfinal, rfl⟩ | ⟨hfinal, hends⟩
  · rcases microOp_seq_of_final hfinal [] s with ⟨st, -, hseq⟩ | ⟨ops, st, hops, -, -, hseq⟩
    · exact State.queueRuns_of_idle hseq
    · refine State.queueRuns_of_run hseq (queueEnds_append (fun o ho => isFinal_of_isLineOp (hops o ho)) rfl) ?_
      intro o ho
      rcases List.mem_append.1 ho with ho | ho
      · exact operandFits_of_isLineOp (hops o ho) _
      · obtain rfl := List.mem_singleton.1 ho
        rfl
  · rcases microOp_seq_of_not_final hfinal q s with hseq | ⟨rfl, hseq | hseq⟩
    · exact State.queueRuns_of_run hseq hends fun o ho => hsize ▸ hf o (List.mem_cons_of_mem _ ho)
    · exact State.queueRuns_of_run hseq he fun o ho => hsize ▸ hf o ho
    · refine State.queueRuns_of_run hseq rfl fun o ho => ?_
      obtain rfl := List.mem_singleton.1 ho
      rfl

/-! ### One step and many steps of `ENGINE` -/

theorem engineStep_of_run {s : State} {q : List MicroOp} (h : s.seq = .run q) : engineStep s = runStep s q := by
  simp only [engineStep, h]

/-- The acceptance step on a request that decodes (R37 (a), R140). -/
theorem engineStep_accept {s : State} {i : Instr} (hidle : s.seq = .idle) (hreq : s.reqValid = true)
    (hdec : decodeHeader s.reqType s.reqCode = .instr i) :
    engineStep s = .next (s.accept s.reqType s.reqCode (program i)) := by
  simp only [engineStep, hidle, acceptStep, hreq, if_true, hdec]

theorem engineStep_of_no_request {s : State} (hidle : s.seq = .idle) (hreq : s.reqValid = false) :
    engineStep s = .next s := by
  simp [engineStep, hidle, acceptStep, hreq]

/-- A held wait is a state `ENGINE` cannot leave (R143, U5). -/
theorem engineStep_held {s : State} {q : List MicroOp} (hs : s.seq = .run (.waitIdle :: q)) (hbusy : s.epBusy = true)
    (hlimit : s.params.epWaitLimit = none) : engineStep s = .next s := by
  rw [engineStep_of_run hs, runStep_of_fits rfl]
  exact congrArg _ ((opWaitIdle_hold hbusy hlimit q).trans (State.resume_self hs))

/-- A micro-op that runs has its offset within the buffer, if it has one (R37 (b), R51). -/
theorem runStep_cons_next {op : MicroOp} {q : List MicroOp} {s t : State} (h : runStep s (op :: q) = .next t) :
    (∀ a, storeOffset op = some a → a < s.cbufSize) ∧ t = microOp op q s := by
  cases hoff : storeOffset op with
  | none =>
    simp only [runStep, hoff, Host.Outcome.next.injEq] at h
    exact ⟨fun a ha => by simp at ha, h.symm⟩
  | some a =>
    simp only [runStep, hoff] at h
    split_ifs at h with ha
    cases h
    exact ⟨fun b hb => Option.some.inj hb ▸ ha, rfl⟩

/-- What a step of `ENGINE` is: an acceptance, a wait without a request, or one micro-op (R37). -/
theorem engineStep_next_cases {s t : State} (h : engineStep s = .next t) :
    (∃ i, s.seq = .idle ∧ s.reqValid = true ∧ decodeHeader s.reqType s.reqCode = .instr i ∧
      t = s.accept s.reqType s.reqCode (program i)) ∨
    (s.seq = .idle ∧ s.reqValid = false ∧ t = s) ∨
    (∃ op q, s.seq = .run (op :: q) ∧ (∀ a, storeOffset op = some a → a < s.cbufSize) ∧ t = microOp op q s) := by
  cases hq : s.seq with
  | idle =>
    cases hreq : s.reqValid with
    | false =>
      rw [engineStep_of_no_request hq hreq] at h
      cases h
      exact .inr (.inl ⟨rfl, rfl, rfl⟩)
    | true =>
      cases hdec : decodeHeader s.reqType s.reqCode with
      | instr i =>
        rw [engineStep_accept hq hreq hdec] at h
        cases h
        exact .inl ⟨i, rfl, rfl, rfl, rfl⟩
      | rejected why => simp [engineStep, hq, acceptStep, hreq, hdec] at h
  | run q =>
    rw [engineStep_of_run hq] at h
    cases q with
    | nil => cases h
    | cons op q => exact .inr (.inr ⟨op, q, rfl, runStep_cons_next h⟩)

theorem engineSteps_of_fixed {s : State} (h : engineStep s = .next s) (k : Nat) : engineSteps k s = .next s := by
  induction k with
  | zero => rfl
  | succ k ih => rw [engineSteps_of_next h, ih]

/-- Driving a queue that runs without a fault is a number of `ENGINE`'s steps (R37). -/
theorem engineSteps_drive (n : Nat) : ∀ s : State, s.QueueRuns → ∃ k, engineSteps k s = .next (drive n s) := by
  induction n with
  | zero => exact fun s _ => ⟨0, rfl⟩
  | succ n ih =>
    intro s hs
    cases hq : s.seq with
    | idle => exact ⟨0, by rw [drive_idle hq]; rfl⟩
    | run q =>
      obtain ⟨hends, hfits⟩ := hs q hq
      cases q with
      | nil => simp [queueEnds] at hends
      | cons op q =>
        obtain ⟨k, hk⟩ := ih (microOp op q s) (microOp_queueRuns hends hfits)
        have hstep : engineStep s = .next (microOp op q s) := by
          rw [engineStep_of_run hq, runStep_of_fits (hfits op (List.mem_cons_self ..))]
        refine ⟨k + 1, ?_⟩
        rw [engineSteps_of_next hstep, hk]
        simp only [drive, hq]

/-! ### Where a command comes to a stand -/

/-- A write with an idle endpoint ends idle, its count refused or not (R144, R147). -/
theorem runCommand_write_seq {s : State} (h : s.epBusy = false) (ty c : Byte) (st : Strobe) :
    (runCommand ty c (programWrite st) s).seq = .idle := by
  cases hs : s.refusesCount s.payloadCount with
  | true => rw [runCommand_refused h ty c st hs, State.finish_seq]
  | false => rw [runCommand_write h ty c st hs, State.finish_seq]

/-- With an idle endpoint every command ends idle (R36, R178). -/
theorem runCommand_seq_of_not_busy (i : Instr) {s : State} (h : s.epBusy = false) :
    (runCommand i.typeByte i.codeByte (program i) s).seq = .idle := by
  cases i with
  | spiWr => exact runCommand_write_seq h _ _ .le
  | trigWr => exact runCommand_write_seq h _ _ .trig
  | spiRd => rw [program, runCommand_spiRd h, State.finish_seq]
  | statRd d => rw [program, runCommand_statRd h, State.finish_seq]
  | cepdWr => rw [program, runCommand_enable h, State.finish_seq]
  | unknown d c => rw [program, runCommand_unknown, State.finish_seq]

/-- A command ends idle or at a wait that `ENGINE` cannot leave (R36, R143). -/
theorem runCommand_idle_or_fixed (i : Instr) (s : State) :
    (runCommand i.typeByte i.codeByte (program i) s).seq = .idle ∨
      engineStep (runCommand i.typeByte i.codeByte (program i) s) =
        .next (runCommand i.typeByte i.codeByte (program i) s) := by
  cases hw : waitsForIdle i with
  | false =>
    cases i with
    | unknown d c => exact .inl (by rw [program, runCommand_unknown, State.finish_seq])
    | _ => simp [waitsForIdle] at hw
  | true =>
    rcases wait_cases hw s with hpass | ⟨hbusy, hlimit, hheld⟩ | ⟨limit, -, -, htimeout⟩
    · exact .inl (runCommand_seq_of_not_busy i hpass)
    · rw [hheld]
      exact .inr (engineStep_held (congrArg Seq.run (program_of_waits hw)) hbusy hlimit)
    · exact .inl (by rw [htimeout, State.finish_seq])

/-- Settles O42: acceptance is one step, the run of the program is `drive`, and `drive` is an iteration of `engineStep`. -/
theorem commandIsEngineSteps : Obligations.CommandIsEngineSteps := by
  intro i s hidle hreq hdec
  obtain ⟨htype, hcode⟩ := bytes_of_decodeHeader hdec
  obtain ⟨k, hk⟩ := engineSteps_drive (commandSteps s) _ (s.queueRuns_accept i.typeByte i.codeByte i)
  have hacc : engineStep s = .next (s.accept i.typeByte i.codeByte (program i)) := by
    rw [htype, hcode, engineStep_accept hidle hreq hdec]
  exact ⟨k + 1, _, exec_eq i s, (engineSteps_of_next hacc k).trans hk,
    (runCommand_idle_or_fixed i s).imp_right engineSteps_of_fixed⟩

end Sys2Proof.Machine
end

section
/-! PROOFS. What a move of `USBC` can do (R183), said once, and the statements on the controller's side that follow. -/

namespace Sys2Proof.Machine

/-- What a move of `USBC` that is not refused does, with the right by which it is made (R183). -/
inductive UsbcEffect (s : State) : UsbcMove → State → Prop
  | present (type code : Byte) (len : Half) (payload : List Byte) (hidle : s.seq = .idle) (hreq : s.reqValid = false)
      (hlen : payload.length ≤ len.toNat) (hsize : payload.length ≤ s.cbufSize) :
      UsbcEffect s (.present type code len payload)
        { s with
          reqType := type
          reqCode := code
          reqLen := len
          reqValid := true
          cbuf := Memory.writeList s.cbuf 0 payload }
  | writeByte (a : Nat) (v : Byte) (hopen : s.bufferOpen = true) (hsize : a < s.cbufSize) :
      UsbcEffect s (.writeByte a v) (s.cbufWrite a v)
  | setBusy (hown : ownsBuffer s.seq = false) : UsbcEffect s .setBusy { s with epBusy := true }
  | clearBusy : UsbcEffect s .clearBusy { s with epBusy := false }
  | sendReply (hidle : s.seq = .idle) (hreq : s.reqValid = false) (hup : s.reqType = 0xC0) :
      UsbcEffect s .takeReply { s with hostReplies := s.hostReplies ++ [s.replyBytes] }
  | statusStage (hidle : s.seq = .idle) (hreq : s.reqValid = false) (hdown : s.reqType = 0x40) :
      UsbcEffect s .takeReply s

theorem usbcPresent_effect {type code : Byte} {len : Half} {payload : List Byte} {s t : State}
    (h : usbcPresent type code len payload s = .next t) : UsbcEffect s (.present type code len payload) t := by
  unfold usbcPresent at h
  split_ifs at h with hfree hfits
  cases h
  exact .present _ _ _ _ hfree.1 hfree.2 hfits.1 hfits.2

theorem usbcWriteByte_effect {a : Nat} {v : Byte} {s t : State} (h : usbcWriteByte a v s = .next t) :
    UsbcEffect s (.writeByte a v) t := by
  unfold usbcWriteByte at h
  split_ifs at h with hopen hsize
  cases h
  exact .writeByte a v hopen hsize

theorem usbcSetBusy_effect {s t : State} (h : usbcSetBusy s = .next t) : UsbcEffect s .setBusy t := by
  unfold usbcSetBusy at h
  split_ifs at h with hown
  cases h
  exact .setBusy (Bool.eq_false_of_not_eq_true hown)

theorem usbcTakeReply_effect {s t : State} (h : usbcTakeReply s = .next t) : UsbcEffect s .takeReply t := by
  unfold usbcTakeReply at h
  split_ifs at h with hfree hup hdown
  · cases h
    exact .sendReply hfree.1 hfree.2 hup
  · cases h
    exact .statusStage hfree.1 hfree.2 hdown

/-- Every answer of a move of `USBC` is one of the effects. -/
theorem usbcStep_effect {u : UsbcMove} {s t : State} (h : usbcStep u s = .next t) : UsbcEffect s u t := by
  cases u with
  | present type code len payload => exact usbcPresent_effect h
  | writeByte a v => exact usbcWriteByte_effect h
  | setBusy => exact usbcSetBusy_effect h
  | clearBusy => cases h; exact .clearBusy
  | takeReply => exact usbcTakeReply_effect h

theorem UsbcEffect.params {u : UsbcMove} {s t : State} (h : UsbcEffect s u t) : t.params = s.params := by
  cases h <;> rfl

/-! ### When the buffer is open to `USBC` (R16, R40 (a), R62; log 18) -/

theorem State.bufferOpen_of_idle {s : State} (h : s.seq = .idle) : s.bufferOpen = (s.epBusy || !s.reqValid) :=
  if_pos h

theorem State.bufferOpen_of_running {s : State} (h : s.seq ≠ .idle) :
    s.bufferOpen = (s.params.lateFill && s.epBusy && !ownsBuffer s.seq) :=
  if_neg h

/-- A buffer that is open while a command runs is open by `lateFill`, and under `EP_BUSY`. -/
theorem State.lateFill_of_bufferOpen {s : State} (h : s.seq ≠ .idle) (hopen : s.bufferOpen = true) :
    s.params.lateFill = true ∧ s.epBusy = true := by
  rw [State.bufferOpen_of_running h, Bool.and_eq_true, Bool.and_eq_true] at hopen
  exact hopen.1

/-- The queues of a running command that has passed no wait (R62, R141, R143). -/
theorem ownsBuffer_of_no_wait_passed {sq : Seq}
    (h : (∃ q, sq = .run (.waitIdle :: q)) ∨ sq = .run [.arm 0, .done .unknownCommand] ∨
      sq = .run [.done .unknownCommand] ∨ sq = .run [.done .endpointTimeout]) : ownsBuffer sq = false := by
  rcases h with ⟨q, rfl⟩ | rfl | rfl | rfl
  · simp [ownsBuffer]
  all_goals rfl

theorem usbcStep_writeByte_of_open {s : State} {a : Nat} (hopen : s.bufferOpen = true) (ha : a < s.cbufSize) (v : Byte) :
    usbcStep (.writeByte a v) s = .next (s.cbufWrite a v) := by
  simp [usbcStep, usbcWriteByte, hopen, ha]

theorem usbcStep_writeByte_of_closed {s : State} (hopen : s.bufferOpen = false) (a : Nat) (v : Byte) :
    usbcStep (.writeByte a v) s = .refused .bufferOwned := by
  simp [usbcStep, usbcWriteByte, hopen]

/-- Settles O57: in the allowed situations the buffer is open and one byte is written, in the others it is closed. -/
theorem usbcWritesPayloadByte : Obligations.UsbcWritesPayloadByte := by
  intro s a v ha hsit
  split_ifs with hallow
  · have hopen : s.bufferOpen = true := by
      rcases hsit with ⟨hidle, hprep⟩ | ⟨hbusy, hqueue⟩
      · rw [State.bufferOpen_of_idle hidle]
        rcases hprep with hreq | hbusy
        · simp [hreq]
        · simp [hbusy]
      · by_cases hidle : s.seq = .idle
        · simp [State.bufferOpen_of_idle hidle, hbusy]
        · have hlate : s.params.lateFill = true := hallow.resolve_left hidle
          simp [State.bufferOpen_of_running hidle, hlate, hbusy, ownsBuffer_of_no_wait_passed hqueue]
    exact ⟨_, usbcStep_writeByte_of_open hopen ha v, rfl, fun b => State.cbufRead_cbufWrite s a b v⟩
  · obtain ⟨hrun, hlate⟩ := not_or.1 hallow
    refine usbcStep_writeByte_of_closed ?_ a v
    simp [State.bufferOpen_of_running hrun, hlate]

/-- While a command runs, `USBC` writes no byte of `CBUF` without `lateFill` and `EP_BUSY` both (R16; log 18). -/
theorem UsbcEffect.cbufRead_of_running {u : UsbcMove} {s t : State} (h : UsbcEffect s u t) (hrun : s.seq ≠ .idle)
    (hclosed : s.params.lateFill = false ∨ s.epBusy = false) (a : Nat) : t.cbufRead a = s.cbufRead a := by
  cases h with
  | present _ _ _ _ hidle => exact absurd hidle hrun
  | writeByte b v hopen =>
    obtain ⟨hlate, hbusy⟩ := State.lateFill_of_bufferOpen hrun hopen
    simp [hlate, hbusy] at hclosed
  | setBusy | clearBusy | sendReply | statusStage => rfl

/-- Settles O58: no effect of a move writes a field of `ENGINE`'s, and none writes the buffer of a running command. -/
theorem usbcWritesNothingOfEngine : Obligations.UsbcWritesNothingOfEngine := by
  intro u s t h
  have heff := usbcStep_effect h
  have hbuf := heff.cbufRead_of_running
  cases heff <;>
    exact ⟨fun _ => rfl, fun _ => rfl, rfl, rfl, rfl, rfl, rfl, rfl, rfl, rfl, rfl, hbuf⟩

end Sys2Proof.Machine
end

section
/-! PROOFS. What `step` does in each situation (R36, R37; log 3), and that no step changes a parameter (R9). -/

namespace Sys2Proof.Machine

/-! ### `step` by situation -/

theorem State.pending_eq_none {s : State} (h : s.seq ≠ .idle ∨ s.reqValid = false) : s.pending = none :=
  if_neg fun ⟨hidle, hreq⟩ => h.elim (· hidle) fun hno => by simp [hno] at hreq

theorem step_of_scheduled {s : State} {m : Move} {rest : List Move} (h : s.schedule = m :: rest) :
    step s = agentStep m { s with schedule := rest } := by
  simp only [step, h]

theorem step_of_not_pending {s : State} (hsched : s.schedule = []) (hpend : s.pending = none) : step s = engineStep s := by
  simp only [step, hsched, hpend]

/-- Settles O8: the three situations are the branches of `step` without a pending request. -/
theorem stepOtherwise : Obligations.StepOtherwise := by
  intro s
  refine ⟨fun q hsched hrun => ?_, fun hsched hidle hreq => ?_, fun m rest hsched => step_of_scheduled hsched⟩
  · exact step_of_not_pending hsched (State.pending_eq_none (.inl (by simp [hrun])))
  · rw [step_of_not_pending hsched (State.pending_eq_none (.inr hreq)), engineStep_of_no_request hidle hreq]

/-- What one step is: a scheduled move, a pending command run whole, or a step of `ENGINE` (log 3). -/
theorem step_next_cases {s t : State} (h : step s = .next t) :
    (∃ m rest, s.schedule = m :: rest ∧ agentStep m { s with schedule := rest } = .next t) ∨
    (∃ i, s.schedule = [] ∧ s.pending = some (.instr i) ∧ exec i s = .next t) ∨
    (s.schedule = [] ∧ s.pending = none ∧ engineStep s = .next t) := by
  unfold step at h
  split at h
  case h_1 m rest hsched => exact .inl ⟨m, rest, hsched, h⟩
  case h_2 hsched =>
    split at h
    case h_1 i hpend => exact .inr (.inl ⟨i, hsched, hpend, h⟩)
    case h_2 => cases h
    case h_3 hpend => exact .inr (.inr ⟨hsched, hpend, h⟩)

/-! ### The parameters -/

theorem engineStep_params {s t : State} (h : engineStep s = .next t) : t.params = s.params := by
  rcases engineStep_next_cases h with ⟨i, -, -, -, rfl⟩ | ⟨-, -, rfl⟩ | ⟨op, q, -, -, rfl⟩
  · rfl
  · rfl
  · exact microOp_params op q s

theorem drive_params (n : Nat) (s : State) : (drive n s).params = s.params := by
  induction n generalizing s with
  | zero => rfl
  | succ n ih =>
    unfold drive
    split
    · rw [ih, microOp_params]
    all_goals rfl

theorem exec_params {i : Instr} {s t : State} (h : exec i s = .next t) : t.params = s.params := by
  rw [exec_eq] at h
  cases h
  exact drive_params _ _

theorem agentStep_params {m : Move} {s t : State} (h : agentStep m s = .next t) : t.params = s.params := by
  cases m with
  | engine => exact engineStep_params h
  | usbc u => exact (usbcStep_effect h).params
  | reset => cases h; rfl

/-- Settles O51: neither a move of an agent, nor a whole command, nor a step of `ENGINE` changes the parameters. -/
theorem parametersNeverChange : Obligations.ParametersNeverChange := by
  intro s t h
  rcases step_next_cases h with ⟨m, rest, -, hmove⟩ | ⟨i, -, -, hexec⟩ | ⟨-, -, hengine⟩
  · exact (agentStep_params hmove :)
  · exact exec_params hexec
  · exact engineStep_params hengine

end Sys2Proof.Machine
end

section
/-! PROOFS. The invariant of the machine in two parts, the registers and the sequencer; what every micro-op, every command
and every move of another agent keeps of it (R33, R35, R37, R41); and that no step from a state of it faults (R51, R170). -/

namespace Sys2Proof.Machine

/-! ### The two parts of the invariant -/

/-- The part of the invariant that says nothing of the sequencer and the lines: `RESET_PORT`, the buffer, the reply length
and `WAITCNT`. It is stated of the four values, so that a state that keeps them keeps it as it stands. -/
structure RegistersFit (p : Params) (m : List Host.Cell) (reply wait : Nat) : Prop where
  resetLow : ∀ l ∈ restLines, p.resetPort.getLsbD (p.pin l) = false
  canonical : Memory.wf m = true
  inBuffer : ∀ c ∈ m, c.1 < p.cbufSize
  replyFits : reply ≤ p.cbufSize
  waitBound : wait ≤ p.epWaitLimit.getD 0

/-- The registers of a state fit. -/
def State.RegsFit (s : State) : Prop := RegistersFit s.params s.cbuf s.replyLen s.waitCnt

/-- The sequencer is at rest or on its way there: the rest of the invariant. -/
structure State.SeqFits (s : State) : Prop where
  idleAtRest : s.seq = .idle → s.atRest
  running : ∀ q, s.seq = .run q → QueueInv s q

theorem State.inv_iff (s : State) : s.Inv ↔ s.RegsFit ∧ s.SeqFits where
  mp h := ⟨⟨h.resetLow, h.canonical, h.inBuffer, h.replyFits, h.waitBound⟩, ⟨h.idleAtRest, h.running⟩⟩
  mpr := fun ⟨hr, hs⟩ =>
    ⟨hr.resetLow, hr.canonical, hr.inBuffer, hr.replyFits, hr.waitBound, hs.idleAtRest, hs.running⟩

theorem RegistersFit.write {p : Params} {m : List Host.Cell} {reply wait a : Nat} (h : RegistersFit p m reply wait)
    (ha : a < p.cbufSize) (v : Byte) : RegistersFit p (Memory.write m a v) reply wait :=
  { h with
    canonical := Memory.wf_write h.canonical a v
    inBuffer := fun c hc => (Memory.mem_write hc).elim (· ▸ ha) (h.inBuffer c) }

theorem RegistersFit.writeList {p : Params} {m : List Host.Cell} {reply wait : Nat} (h : RegistersFit p m reply wait)
    {vs : List Byte} (hvs : vs.length ≤ p.cbufSize) : RegistersFit p (Memory.writeList m 0 vs) reply wait :=
  { h with
    canonical := Memory.wf_writeList h.canonical 0 vs
    inBuffer := fun c hc => (Memory.mem_writeList hc).elim (fun hlt => by omega) (h.inBuffer c) }

/-- The registers after a reset (R42). -/
theorem RegistersFit.reset {p : Params} (hlow : ∀ l ∈ restLines, p.resetPort.getLsbD (p.pin l) = false) :
    RegistersFit p [] 0 0 :=
  ⟨hlow, rfl, fun _ hc => absurd hc List.not_mem_nil, Nat.zero_le _, Nat.zero_le _⟩

theorem State.seqFits_of_idle {s : State} (hidle : s.seq = .idle) (hrest : s.atRest) : s.SeqFits :=
  ⟨fun _ => hrest, fun _ hq => Seq.noConfusion (hidle.symm.trans hq)⟩

/-- What holds of the queue that runs holds of every queue that runs. -/
theorem State.forall_queue {P : List MicroOp → Prop} {s : State} {q : List MicroOp} (hrun : s.seq = .run q) (hq : P q) :
    ∀ q', s.seq = .run q' → P q' := by
  intro q' hq'
  obtain rfl : q = q' := Seq.run.inj (hrun.symm.trans hq')
  exact hq

theorem State.seqFits_of_run {s : State} {q : List MicroOp} (hrun : s.seq = .run q) (hq : QueueInv s q) : s.SeqFits :=
  ⟨fun hidle => Seq.noConfusion (hidle.symm.trans hrun), State.forall_queue hrun hq⟩

theorem State.atRest.congr {s t : State} (h : s.atRest) (hline : ∀ l, t.line l = s.line l) : t.atRest :=
  fun l hl => (hline l).trans (h l hl)

/-- The condition on a queue reads the size of the buffer and the lines, and nothing else. -/
theorem QueueInv.congr {s t : State} {q : List MicroOp} (h : QueueInv s q) (hsize : t.cbufSize = s.cbufSize)
    (hline : ∀ l, t.line l = s.line l) : QueueInv t q where
  ends := h.ends
  fits op ho := hsize ▸ h.fits op ho
  waitsFirst := h.waitsFirst
  waitsAtRest hw := (h.waitsAtRest hw).congr hline
  comesToRest l hl := hline l ▸ h.comesToRest l hl

theorem State.SeqFits.congr {s t : State} (h : s.SeqFits) (hsize : t.cbufSize = s.cbufSize)
    (hline : ∀ l, t.line l = s.line l) (hseq : t.seq = s.seq) : t.SeqFits where
  idleAtRest hidle := (h.idleAtRest (hseq ▸ hidle)).congr hline
  running q hq := (h.running q (hseq ▸ hq)).congr hsize hline

/-! ### Queues -/

theorem QueueInv.operandFits_head {s : State} {op : MicroOp} {q : List MicroOp} (h : QueueInv s (op :: q)) :
    operandFits s.cbufSize op = true :=
  h.fits op (List.mem_cons_self ..)

/-- The rest of a queue after a micro-op that brought the lines where the queue says. -/
theorem QueueInv.tail {s t : State} {op : MicroOp} {q : List MicroOp} (h : QueueInv s (op :: q))
    (hfinal : isFinal op = false) (hsize : t.cbufSize = s.cbufSize)
    (hline : ∀ l, t.line l = levelAfter l [op] (s.line l)) : QueueInv t q where
  ends := (queueEnds_cons h.ends).elim (fun hop => by simp [hfinal] at hop) And.right
  fits o ho := hsize ▸ h.fits o (List.mem_cons_of_mem _ ho)
  waitsFirst hw := h.waitsFirst (List.mem_of_mem_tail hw)
  waitsAtRest hw := absurd (List.mem_of_mem_head? hw) h.waitsFirst
  comesToRest l hl := by rw [hline, ← levelAfter_cons]; exact h.comesToRest l hl

/-- A micro-op that ends the program stands alone, and the lines it finds are those the block comes to rest with. -/
theorem QueueInv.of_final {s : State} {op : MicroOp} {q : List MicroOp} (h : QueueInv s (op :: q))
    (hfinal : isFinal op = true) : q = [] ∧ s.atRest := by
  obtain rfl : q = [] := (queueEnds_cons h.ends).elim And.right (fun hop => by simp [hfinal] at hop)
  refine ⟨rfl, fun l hl => ?_⟩
  have hlow := h.comesToRest l hl
  cases op with
  | done | stageW | stageE => exact hlow
  | _ => simp [isFinal] at hfinal

/-- Line micro-ops that bring the lines of rule R41 low, and a `DONE`. -/
theorem queueInv_lineOps_done {t : State} {ops : List MicroOp} (hops : ∀ op ∈ ops, isLineOp op = true)
    (hlow : ∀ l ∈ restLines, levelAfter l ops (t.line l) = false) (st : Status) : QueueInv t (ops ++ [.done st]) := by
  have hwait : MicroOp.waitIdle ∉ ops ++ [.done st] := by
    intro hw
    rcases List.mem_append.1 hw with hw | hw
    · exact absurd (hops _ hw) (by decide)
    · simp at hw
  refine ⟨queueEnds_append (fun o ho => isFinal_of_isLineOp (hops o ho)) rfl, fun o ho => ?_,
    fun hw => hwait (List.mem_of_mem_tail hw), fun hw => absurd (List.mem_of_mem_head? hw) hwait, fun l hl => ?_⟩
  · rcases List.mem_append.1 ho with ho | ho
    · exact operandFits_of_isLineOp (hops o ho) _
    · obtain rfl := List.mem_singleton.1 ho
      rfl
  · rw [levelAfter_append]
    exact hlow l hl

theorem State.seqFits_resume_done {s : State} (hrest : s.atRest) (st : Status) : (s.resume [.done st]).SeqFits :=
  State.seqFits_of_run rfl (queueInv_lineOps_done (t := s.resume [.done st]) (ops := [])
    (fun _ ho => absurd ho List.not_mem_nil) hrest st)

/-- The six lists of rule R141. -/
def programs : List (List MicroOp) :=
  [programSpiWr, programSpiRd, programTrigWr, programStatRd, programCepdWr, programUnknown]

/-- What holds of the six lists holds of the program of every command. -/
theorem program_mem_programs (i : Instr) : program i ∈ programs := by
  cases i <;> simp [program, programs]

theorem not_waitIdle_mem_program_tail (i : Instr) : MicroOp.waitIdle ∉ (program i).tail :=
  have h : ∀ q ∈ programs, MicroOp.waitIdle ∉ q.tail := by decide
  h _ (program_mem_programs i)

/-- From the lines at rest every program comes to rest: a staging micro-op is taken as leaving the lines, and a read pulse
ends with `CLK` low. -/
theorem levelAfter_program (i : Instr) : ∀ l ∈ restLines, levelAfter l (program i) false = false :=
  have h : ∀ q ∈ programs, ∀ l ∈ restLines, levelAfter l q false = false := by decide
  h _ (program_mem_programs i)

/-- An accepted program meets the condition on queues when the block was at rest (R140, R141). -/
theorem queueInv_accept {s : State} (hrest : s.atRest) (ty c : Byte) (i : Instr) :
    QueueInv (s.accept ty c (program i)) (program i) where
  ends := queueEnds_program i
  fits := operandFits_program i s.params.five_le_cbufSize
  waitsFirst := not_waitIdle_mem_program_tail i
  waitsAtRest _ := hrest
  comesToRest l hl := by
    rw [State.accept_line, hrest l hl]
    exact levelAfter_program i l hl

/-! ### What a micro-op keeps -/

theorem opWaitIdle_regsFit {s : State} (h : s.RegsFit) (q : List MicroOp) : (opWaitIdle q s).RegsFit := by
  unfold opWaitIdle
  split
  · exact h
  · split
    case h_1 => exact h
    case h_2 limit hlimit =>
      split_ifs with hbelow
      · exact { h with waitBound := by simpa [hlimit] using hbelow }
      · exact h

/-- A micro-op whose operand fits the buffer keeps the registers in their bounds (R33, R51). -/
theorem microOp_regsFit {op : MicroOp} {s : State} (h : s.RegsFit) (hfits : operandFits s.cbufSize op = true)
    (q : List MicroOp) : (microOp op q s).RegsFit := by
  cases op with
  | stl a => exact h.write (of_decide_eq_true hfits) _
  | sth a => exact h.write (of_decide_eq_true hfits) _
  | arm n => exact { h with replyFits := of_decide_eq_true hfits }
  | waitIdle => exact opWaitIdle_regsFit h q
  | stageW st => simp only [microOp, opStageW]; split <;> exact h
  | set | clr | hold | aclr | shin | stageE | done => exact h

theorem opWaitIdle_seqFits {s : State} {q : List MicroOp} (h : QueueInv s (.waitIdle :: q)) :
    (opWaitIdle q s).SeqFits := by
  have hrest : s.atRest := h.waitsAtRest rfl
  unfold opWaitIdle
  split
  · exact State.seqFits_of_run rfl (h.tail rfl rfl fun _ => rfl)
  · split
    case h_1 => exact State.seqFits_of_run rfl (h.congr rfl fun _ => rfl)
    case h_2 =>
      split
      · exact State.seqFits_of_run rfl (h.congr rfl fun _ => rfl)
      · exact State.seqFits_resume_done (s := s.emit .poll) hrest .endpointTimeout

theorem opStageW_refused {s : State} (h : s.refusesCount s.payloadCount = true) (st : Strobe) (q : List MicroOp) :
    opStageW st q s = (s.loadSerialWord s.payloadWord s.payloadCount).resume (.done .invalidBitCount :: q) :=
  if_pos h

theorem opStageW_expands {s : State} (h : s.refusesCount s.payloadCount = false) (st : Strobe) (q : List MicroOp) :
    opStageW st q s =
      ((s.loadSerialWord s.payloadWord s.payloadCount).countDraws (s.payloadCount.toNat - 32)).resume
        (uopsWrite s.drawAt s.payloadCount.toNat s.payloadWord st ++ .done .ok :: q) :=
  if_neg (Bool.eq_false_iff.1 h)

/-- A write expands, from the lines at rest, to micro-ops that bring them back to rest (R117, R144). -/
theorem opStageW_seqFits {s : State} (hrest : s.atRest) (st : Strobe) : (opStageW st [] s).SeqFits := by
  cases hcount : s.refusesCount s.payloadCount with
  | true =>
    rw [opStageW_refused hcount]
    exact State.seqFits_resume_done (s := s.loadSerialWord _ _) hrest .invalidBitCount
  | false =>
    rw [opStageW_expands hcount]
    refine State.seqFits_of_run rfl (queueInv_lineOps_done (uopsWrite_lineOps _ _ _ _) (fun l hl => ?_) .ok)
    have hlow : s.line l = false := hrest l hl
    have hdata : l ≠ .data := by rintro rfl; exact absurd hl (by decide)
    simp [levelAfter_uopsWrite, hlow, hdata]

/-- The enable setter expands to micro-ops that leave `CLK`, `LE` and `TRIG` alone (R145, R161). -/
theorem opStageE_seqFits {s : State} (hrest : s.atRest) : (opStageE [] s).SeqFits := by
  refine State.seqFits_of_run rfl (queueInv_lineOps_done (uopsEnable_lineOps _) (fun l hl => ?_) _)
  have hlow : (opStageE [] s).line l = false := hrest l hl
  have hce : l ≠ .ce := by rintro rfl; exact absurd hl (by decide)
  have hpdrf : l ≠ .pdrf := by rintro rfl; exact absurd hl (by decide)
  simp [levelAfter_uopsEnable, hlow, hce, hpdrf]

theorem isFinal_of_isPlain {op : MicroOp} (h : isPlain op = true) : isFinal op = false := by
  cases op <;> simp_all [isPlain, isFinal]

theorem microOp_plain_seqFits {op : MicroOp} {q : List MicroOp} {s : State} (h : QueueInv s (op :: q))
    (hplain : isPlain op = true) : (microOp op q s).SeqFits := by
  have hsize : ((act op s).resume q).cbufSize = s.cbufSize := congrArg (fun p => p.cbufSize) (act_params op s)
  rw [microOp_plain hplain]
  exact State.seqFits_of_run rfl (h.tail (isFinal_of_isPlain hplain) hsize (act_line op s))

/-- The head of a queue of the invariant leaves the sequencer at rest or on its way there (R37 (b), R41). -/
theorem microOp_seqFits {op : MicroOp} {q : List MicroOp} {s : State} (h : QueueInv s (op :: q)) :
    (microOp op q s).SeqFits := by
  cases op with
  | waitIdle => exact opWaitIdle_seqFits h
  | stageW st =>
    obtain ⟨rfl, hrest⟩ := h.of_final rfl
    exact opStageW_seqFits hrest st
  | stageE =>
    obtain ⟨rfl, hrest⟩ := h.of_final rfl
    exact opStageE_seqFits hrest
  | done st => exact State.seqFits_of_idle rfl (h.of_final rfl).2
  | set | clr | hold | aclr | shin | stl | sth | arm => exact microOp_plain_seqFits h rfl

theorem microOp_inv {op : MicroOp} {q : List MicroOp} {s : State} (h : s.Inv) (hrun : s.seq = .run (op :: q)) :
    (microOp op q s).Inv :=
  have hq := h.running _ hrun
  (State.inv_iff _).2 ⟨microOp_regsFit ((State.inv_iff s).1 h).1 hq.operandFits_head q, microOp_seqFits hq⟩

/-! ### What a command, `ENGINE` and every other agent keep -/

theorem accept_inv {s : State} (h : s.Inv) (hidle : s.seq = .idle) (ty c : Byte) (i : Instr) :
    (s.accept ty c (program i)).Inv :=
  (State.inv_iff _).2 ⟨⟨h.resetLow, h.canonical, h.inBuffer, h.replyFits, Nat.zero_le _⟩,
    State.seqFits_of_run rfl (queueInv_accept (h.idleAtRest hidle) ty c i)⟩

theorem drive_inv (n : Nat) : ∀ s : State, s.Inv → (drive n s).Inv := by
  induction n with
  | zero => exact fun s h => h
  | succ n ih =>
    intro s h
    unfold drive
    split
    case h_1 op q hrun => exact ih _ (microOp_inv h hrun)
    case h_2 => exact h
    case h_3 => exact h

theorem exec_inv {i : Instr} {s t : State} (h : s.Inv) (hidle : s.seq = .idle) (he : exec i s = .next t) : t.Inv := by
  rw [exec_eq] at he
  cases he
  exact drive_inv _ _ (accept_inv h hidle _ _ i)

theorem engineStep_inv {s t : State} (h : s.Inv) (he : engineStep s = .next t) : t.Inv := by
  rcases engineStep_next_cases he with ⟨i, hidle, -, -, rfl⟩ | ⟨-, -, rfl⟩ | ⟨op, q, hrun, -, rfl⟩
  · exact accept_inv h hidle _ _ i
  · exact h
  · exact microOp_inv h hrun

/-- A move of `USBC` writes neither the lines nor the sequencer, and the buffer within its bounds (R16, R183). -/
theorem UsbcEffect.inv {u : UsbcMove} {s t : State} (h : UsbcEffect s u t) (hs : s.Inv) : t.Inv := by
  obtain ⟨hregs, hseq⟩ := (State.inv_iff s).1 hs
  refine (State.inv_iff t).2 ⟨?_, ?_⟩
  · cases h with
    | present _ _ _ _ _ _ _ hsize => exact hregs.writeList hsize
    | writeByte _ v _ hsize => exact hregs.write hsize v
    | setBusy | clearBusy | sendReply | statusStage => exact hregs
  · cases h <;> exact hseq.congr rfl (fun _ => rfl) rfl

/-- A state whose registers and lines are those of a reset meets the invariant, if the platform resets the lines of rule R41
low (R42). -/
theorem resetWith_inv {p : Params} (hlow : ∀ l ∈ restLines, p.resetPort.getLsbD (p.pin l) = false) :
    (State.resetWith p).Inv :=
  (State.inv_iff _).2 ⟨RegistersFit.reset hlow, State.seqFits_of_idle rfl hlow⟩

theorem hardReset_inv {s : State} (h : s.Inv) : s.hardReset.Inv :=
  (State.inv_iff _).2 ⟨RegistersFit.reset h.resetLow, State.seqFits_of_idle rfl h.resetLow⟩

theorem agentStep_inv {m : Move} {s t : State} (h : s.Inv) (he : agentStep m s = .next t) : t.Inv := by
  cases m with
  | engine => exact engineStep_inv h he
  | usbc u => exact (usbcStep_effect he).inv h
  | reset =>
    cases he
    exact hardReset_inv h

/-- The invariant says nothing of the moves still to come. -/
theorem State.Inv.with_schedule {s : State} (h : s.Inv) (rest : List Move) : ({ s with schedule := rest } : State).Inv :=
  have ⟨hregs, hseq⟩ := (State.inv_iff s).1 h
  (State.inv_iff _).2 ⟨hregs, hseq.congr rfl (fun _ => rfl) rfl⟩

theorem State.seq_of_pending {s : State} {d : Decoded} (h : s.pending = some d) : s.seq = .idle := by
  by_contra hrun
  rw [State.pending_eq_none (.inl hrun)] at h
  cases h

/-- Settles O43: a scheduled move, a whole command and a step of `ENGINE` each keep the invariant. -/
theorem everyStepKeepsInvariant : Obligations.EveryStepKeepsInvariant := by
  intro s t hs h
  rcases step_next_cases h with ⟨m, rest, -, hmove⟩ | ⟨i, -, hpend, hexec⟩ | ⟨-, -, hengine⟩
  · exact agentStep_inv (hs.with_schedule rest) hmove
  · exact exec_inv hs (State.seq_of_pending hpend) hexec
  · exact engineStep_inv hs hengine

/-- Settles O44: the base case of the invariant; the default platform resets every line low. -/
theorem invariantAtReset : Obligations.InvariantAtReset :=
  ⟨resetWith_inv (by decide), fun _ hlow => resetWith_inv hlow⟩

/-- Settles O45: the state after the step meets the invariant, which brings an idle block's lines low. -/
theorem idleLinesLow : Obligations.IdleLinesLow := by
  intro s t hs h hidle
  have hrest : t.atRest := (everyStepKeepsInvariant s t hs h).idleAtRest hidle
  exact ⟨hrest .clk (by decide), hrest .le (by decide), hrest .trig (by decide)⟩

/-! ### No step from a state of the invariant faults -/

theorem State.Inv.queueRuns {s : State} (h : s.Inv) : s.QueueRuns :=
  fun q hq => ⟨(h.running q hq).ends, (h.running q hq).fits⟩

/-- `ENGINE` faults on no queue that ends in its `DONE` and fits the buffer (R37 (c), R51). -/
theorem engineStep_ne_fault {s : State} (h : s.QueueRuns) (f : Fault) : engineStep s ≠ .fault f := by
  cases hseq : s.seq with
  | idle =>
    simp only [engineStep, hseq, acceptStep]
    split
    · split <;> simp
    · simp
  | run q =>
    obtain ⟨hends, hfits⟩ := h q hseq
    cases q with
    | nil => simp [queueEnds] at hends
    | cons op q =>
      rw [engineStep_of_run hseq, runStep_of_fits (hfits op (List.mem_cons_self ..))]
      simp

/-- A move the controller has no right to is refused: none faults. -/
theorem usbcStep_ne_fault (u : UsbcMove) (s : State) (f : Fault) : usbcStep u s ≠ .fault f := by
  cases u with
  | present => simp only [usbcStep, usbcPresent]; split_ifs <;> simp
  | writeByte => simp only [usbcStep, usbcWriteByte]; split_ifs <;> simp
  | setBusy => simp only [usbcStep, usbcSetBusy]; split_ifs <;> simp
  | clearBusy => simp [usbcStep, usbcClearBusy]
  | takeReply => simp only [usbcStep, usbcTakeReply]; split_ifs <;> simp

theorem agentStep_ne_fault {s : State} (h : s.QueueRuns) (m : Move) (f : Fault) : agentStep m s ≠ .fault f := by
  cases m with
  | engine => exact engineStep_ne_fault h f
  | usbc u => exact usbcStep_ne_fault u s f
  | reset => simp [agentStep]

/-- Settles O46: only `ENGINE` can fault, and not on a queue of the invariant. -/
theorem noStepFaults : Obligations.NoStepFaults := by
  intro s f hs
  unfold step
  split
  case h_1 m rest _ => exact agentStep_ne_fault (hs.with_schedule rest).queueRuns m f
  case h_2 =>
    split
    case h_1 i _ => simp [exec_eq]
    case h_2 => simp
    case h_3 => exact engineStep_ne_fault hs.queueRuns f

end Sys2Proof.Machine
end

section
/-! PROOFS. What a pending request starts (R36, R140), and the values after reset (R42). -/

namespace Sys2Proof

/-- The row a request code selects is one that stands for a command word (R86). -/
theorem wellFormed_decodeCommand (d : Dir) (c : Byte) : (decodeCommand d c).wellFormed = true := by
  cases d <;> simp only [decodeCommand] <;> split_ifs <;> simp_all [Instr.wellFormed, definedCommand]

theorem wellFormed_of_decodeHeader {t c : Byte} {i : Instr} (h : decodeHeader t c = .instr i) : i.wellFormed = true := by
  unfold decodeHeader at h
  split at h
  · cases h
    exact wellFormed_decodeCommand _ _
  · cases h

namespace Machine

theorem step_of_pending {s : State} {i : Instr} (hsched : s.schedule = []) (hpend : s.pending = some (.instr i)) :
    step s = exec i s := by
  simp only [step, hsched, hpend]

/-- Settles O6: the request is the one pending for the block, and what decodes is well-formed. -/
theorem stepRunsDecodedRequest : Obligations.StepRunsDecodedRequest := by
  intro s i hsched hidle hreq hdec
  have hpend : s.pending = some (.instr i) := (if_pos ⟨hidle, hreq⟩).trans (congrArg some hdec)
  exact ⟨wellFormed_of_decodeHeader hdec, step_of_pending hsched hpend⟩

/-- Settles O52: each register is the value `State.resetWith` gives it, and the default `RESET_PORT` is 0. -/
theorem resetValues : Obligations.ResetValues := by
  intro p
  refine ⟨rfl, rfl, rfl, rfl, rfl, fun l => ?_⟩
  cases l <;> rfl

end Machine

end Sys2Proof
end

section
/-! PROOFS. The lines a command leaves alone (R22 to R27, R116): a run that never drives a line keeps its level and records
no event that drives it. -/

namespace Sys2Proof.Machine

/-- Whether a micro-op, with what it expands to, drives the line `l` neither high nor low. -/
def sparesLine (l : Line) : MicroOp → Bool
  | .set l' => l' != l
  | .clr l' => l' != l
  | .stageW st => strobeLine st != l && l != .data && l != .clk
  | .stageE => l != .ce && l != .pdrf
  | _ => true

/-- The line `l` has its old level, and no event added to the trace drives it. -/
structure SparedLine (l : Line) (s t : State) : Prop where
  level : t.line l = s.line l
  events : ∃ ev, t.trace = s.trace ++ ev ∧ ∀ e ∈ ev, drives l e = false

theorem SparedLine.refl (l : Line) (s : State) : SparedLine l s s :=
  ⟨rfl, [], by simp⟩

theorem SparedLine.trans {l : Line} {s t u : State} (h : SparedLine l s t) (h' : SparedLine l t u) : SparedLine l s u := by
  obtain ⟨hlevel, ev, htrace, hev⟩ := h
  obtain ⟨hlevel', ev', htrace', hev'⟩ := h'
  refine ⟨hlevel'.trans hlevel, ev ++ ev', by rw [htrace', htrace, List.append_assoc], fun e he => ?_⟩
  exact (List.mem_append.1 he).elim (hev e) (hev' e)

/-- One event that does not drive the line. -/
theorem SparedLine.of_event {l : Line} {s t : State} {e : Event} (hlevel : t.line l = s.line l)
    (htrace : t.trace = s.trace ++ [e]) (he : drives l e = false) : SparedLine l s t :=
  ⟨hlevel, [e], htrace, by simpa using he⟩

theorem opWaitIdle_sparedLine (l : Line) (q : List MicroOp) (s : State) : SparedLine l s (opWaitIdle q s) := by
  unfold opWaitIdle
  split
  · exact .of_event rfl rfl rfl
  · split
    · exact ⟨rfl, [], (List.append_nil _).symm, by simp⟩
    · split <;> exact .of_event rfl rfl rfl

/-- A micro-op that spares a line keeps its level and drives it in no event. -/
theorem microOp_sparedLine {l : Line} {op : MicroOp} (h : sparesLine l op = true) (q : List MicroOp) (s : State) :
    SparedLine l s (microOp op q s) := by
  cases op with
  | set k =>
    have hk : k ≠ l := by simpa [sparesLine] using h
    exact .of_event (by simp [microOp, opSet, hk.symm]) rfl (by simpa [drives] using hk)
  | clr k =>
    have hk : k ≠ l := by simpa [sparesLine] using h
    exact .of_event (by simp [microOp, opClr, hk.symm]) rfl (by simpa [drives] using hk)
  | waitIdle => exact opWaitIdle_sparedLine l q s
  | stageW st => simp only [microOp, opStageW]; split <;> exact .of_event rfl rfl rfl
  | hold | aclr | shin | stl | sth | arm | stageE | done => exact .of_event rfl rfl rfl

theorem sparesLine_of_lineOp {l : Line} {op : MicroOp} (hop : isLineOp op = true) (hset : op ≠ .set l)
    (hclr : op ≠ .clr l) : sparesLine l op = true := by
  cases op <;> simp_all [isLineOp, sparesLine]

/-- The micro-ops a write expands to spare every line but its strobe, `DATA` and `CLK` (R110). -/
theorem sparesLine_uopsWrite {l : Line} {st : Strobe} (h : sparesLine l (.stageW st) = true) (draw : Nat → Bool) (n : Nat)
    (w : Word) : ∀ op ∈ uopsWrite draw n w st, sparesLine l op = true := by
  have hl : ¬ (l = strobeLine st ∨ l = .data ∨ l = .clk) := by
    simp only [sparesLine, Bool.and_eq_true, bne_iff_ne] at h
    obtain ⟨⟨hstrobe, hdata⟩, hclk⟩ := h
    simp [hstrobe.symm, hdata, hclk]
  refine fun op ho => sparesLine_of_lineOp (uopsWrite_lineOps draw n w st op ho) ?_ ?_
  · rintro rfl; exact hl (mem_uopsWrite_line (.inl ho))
  · rintro rfl; exact hl (mem_uopsWrite_line (.inr ho))

/-- The micro-ops the enable setter expands to spare every line but `CE` and `PDRF` (R161). -/
theorem sparesLine_uopsEnable {l : Line} (h : sparesLine l .stageE = true) (c : Byte) :
    ∀ op ∈ uopsEnable c, sparesLine l op = true := by
  have hl : ¬ (l = .ce ∨ l = .pdrf) := by simpa [sparesLine] using h
  refine fun op ho => sparesLine_of_lineOp (uopsEnable_lineOps c op ho) ?_ ?_
  · rintro rfl; exact hl (mem_uopsEnable_line (.inl ho))
  · rintro rfl; exact hl (mem_uopsEnable_line (.inr ho))

/-- Whatever runs next spares the line `l`. -/
def State.QueueSpares (l : Line) (s : State) : Prop := ∀ q, s.seq = .run q → ∀ op ∈ q, sparesLine l op = true

/-- A queue that spares a line goes on sparing it, through what its staging micro-ops expand to. -/
theorem microOp_queueSpares {l : Line} {op : MicroOp} {q : List MicroOp} (hop : sparesLine l op = true)
    (hq : ∀ o ∈ q, sparesLine l o = true) (s : State) : (microOp op q s).QueueSpares l := by
  have hdone : ∀ st : Status, ∀ o ∈ MicroOp.done st :: q, sparesLine l o = true := fun _ =>
    List.forall_mem_cons.2 ⟨rfl, hq⟩
  cases op with
  | stageW st =>
    rw [show microOp (.stageW st) q s = opStageW st q s from rfl]
    cases hcount : s.refusesCount s.payloadCount with
    | true =>
      rw [opStageW_refused hcount]
      exact State.forall_queue rfl (hdone _)
    | false =>
      rw [opStageW_expands hcount]
      exact State.forall_queue rfl (List.forall_mem_append.2 ⟨sparesLine_uopsWrite hop _ _ _, hdone _⟩)
  | stageE => exact State.forall_queue rfl (List.forall_mem_append.2 ⟨sparesLine_uopsEnable hop _, hdone _⟩)
  | done st => exact fun _ hrun => nomatch hrun
  | waitIdle =>
    rcases microOp_seq_of_not_final (op := .waitIdle) rfl q s with hseq | ⟨-, hseq | hseq⟩
    · exact State.forall_queue hseq hq
    · exact State.forall_queue hseq (List.forall_mem_cons.2 ⟨rfl, hq⟩)
    · exact State.forall_queue hseq (by simp [sparesLine])
  | set | clr | hold | aclr | shin | stl | sth | arm => exact State.forall_queue rfl hq

theorem drive_sparedLine {l : Line} (n : Nat) : ∀ s : State, s.QueueSpares l → SparedLine l s (drive n s) := by
  induction n with
  | zero => exact fun s _ => .refl l s
  | succ n ih =>
    intro s hs
    unfold drive
    split
    case h_1 op q hrun =>
      obtain ⟨hop, hq⟩ := List.forall_mem_cons.1 (hs _ hrun)
      exact (microOp_sparedLine hop q s).trans (ih _ (microOp_queueSpares hop hq s))
    case h_2 => exact .refl l s
    case h_3 => exact .refl l s

/-- A program spares the lines its command may not write (R148 to R153). -/
theorem sparesLine_program {i : Instr} {l : Line} (h : writesLine i l = false) :
    ∀ op ∈ program i, sparesLine l op = true := by
  have hall : (program i).all (fun op => writesLine i l || sparesLine l op) = true := by cases i <;> cases l <;> rfl
  simpa [h] using hall

/-- Settles O47: acceptance drives no line, and the program spares every line that is not the command's own. -/
theorem commandsDriveOnlyTheirLines : Obligations.CommandsDriveOnlyTheirLines := by
  intro i s t l h hl
  rw [exec_eq] at h
  cases h
  have haccept : SparedLine l s (s.accept i.typeByte i.codeByte (program i)) := .of_event rfl rfl rfl
  obtain ⟨hlevel, hevents⟩ :=
    haccept.trans (drive_sparedLine _ _ (State.forall_queue rfl (sparesLine_program hl)))
  exact ⟨hlevel, hevents⟩

end Sys2Proof.Machine
end

section
/-! PROOFS. What a command does not read: the length of the request (R29), and the accumulator before `ACLR` (R32, R121). -/

namespace Sys2Proof.Machine

/-! ### A change of `REQ.len` and `ACC` that comes before or after a micro-op -/

/-- `REQ.len <- n` and `ACC <- v`. -/
def State.setUnread (s : State) (n v : Half) : State := { s with reqLen := n, acc := v }

theorem opWaitIdle_setUnread (q : List MicroOp) (s : State) (n v : Half) :
    opWaitIdle q (s.setUnread n v) = (opWaitIdle q s).setUnread n v := by
  have hbusy : (s.setUnread n v).epBusy = s.epBusy := rfl
  have hparams : (s.setUnread n v).params = s.params := rfl
  have hcount : (s.setUnread n v).waitCnt = s.waitCnt := rfl
  simp only [opWaitIdle, hbusy, hparams, hcount]
  split
  · rfl
  · split
    · rfl
    · split <;> rfl

theorem opStageW_setUnread (st : Strobe) (q : List MicroOp) (s : State) (n v : Half) :
    opStageW st q (s.setUnread n v) = (opStageW st q s).setUnread n v := by
  cases hcount : s.refusesCount s.payloadCount with
  | true => rw [opStageW_refused (s := s.setUnread n v) hcount, opStageW_refused hcount]; rfl
  | false => rw [opStageW_expands (s := s.setUnread n v) hcount, opStageW_expands hcount]; rfl

/-- Whether a micro-op reads or writes `ACC` (R32). -/
def touchesAcc : MicroOp → Bool
  | .aclr => true
  | .shin => true
  | .stl _ => true
  | .sth _ => true
  | _ => false

/-- A micro-op that does not touch `ACC` does the same from any value of it, and from any `REQ.len`. -/
theorem microOp_setUnread {op : MicroOp} (h : touchesAcc op = false) (q : List MicroOp) (s : State) (n v : Half) :
    microOp op q (s.setUnread n v) = (microOp op q s).setUnread n v := by
  cases op with
  | waitIdle => exact opWaitIdle_setUnread q s n v
  | stageW st => exact opStageW_setUnread st q s n v
  | set | clr | hold | arm | stageE | done => rfl
  | aclr | shin | stl | sth => cases h

theorem microOp_acc {op : MicroOp} (h : touchesAcc op = false) (q : List MicroOp) (s : State) :
    (microOp op q s).acc = s.acc :=
  (congrArg State.acc (microOp_setUnread h q s s.reqLen s.acc) :)

theorem microOp_reqLen (op : MicroOp) (q : List MicroOp) (s : State) : (microOp op q s).reqLen = s.reqLen := by
  cases hacc : touchesAcc op with
  | false => exact (congrArg State.reqLen (microOp_setUnread hacc q s s.reqLen s.acc) :)
  | true =>
    cases op with
    | aclr | shin | stl | sth => rfl
    | _ => cases hacc

/-! ### `REQ.len` -/

/-- `REQ.len <- n`. -/
def State.setReqLen (s : State) (n : Half) : State := { s with reqLen := n }

/-- No micro-op reads `REQ.len`. -/
theorem microOp_setReqLen (op : MicroOp) (q : List MicroOp) (s : State) (n : Half) :
    microOp op q (s.setReqLen n) = (microOp op q s).setReqLen n := by
  cases hacc : touchesAcc op with
  | false =>
    calc microOp op q (s.setUnread n s.acc)
      _ = (microOp op q s).setUnread n s.acc := microOp_setUnread hacc q s n s.acc
      _ = (microOp op q s).setUnread n (microOp op q s).acc := by rw [microOp_acc hacc]
  | true =>
    cases op with
    | aclr | shin | stl | sth => rfl
    | _ => cases hacc

theorem drive_setReqLen (k : Nat) (n : Half) : ∀ s : State, drive k (s.setReqLen n) = (drive k s).setReqLen n := by
  induction k with
  | zero => exact fun _ => rfl
  | succ k ih =>
    intro s
    have hseq : (s.setReqLen n).seq = s.seq := rfl
    simp only [drive, hseq]
    split
    · rw [microOp_setReqLen, ih]
    all_goals rfl

/-- Settles O48: the run of a command from a state with another `REQ.len` is its run, with that `REQ.len`. -/
theorem requestLengthNeverRead : Obligations.RequestLengthNeverRead := by
  intro i s n
  have hrun := drive_setReqLen (commandSteps s) n (s.accept i.typeByte i.codeByte (program i))
  exact ⟨_, exec_eq i s, (exec_eq i (s.setReqLen n)).trans (congrArg Host.Outcome.next hrun)⟩

/-! ### `ACC` -/

/-- A micro-op that does not touch `ACC` does the same from any value of it. -/
theorem microOp_setAcc {op : MicroOp} (h : touchesAcc op = false) (q : List MicroOp) (s : State) (v : Half) :
    microOp op q (s.setAcc v) = (microOp op q s).setAcc v :=
  calc microOp op q (s.setUnread s.reqLen v)
    _ = (microOp op q s).setUnread s.reqLen v := microOp_setUnread h q s s.reqLen v
    _ = (microOp op q s).setUnread (microOp op q s).reqLen v := by rw [microOp_reqLen]

/-- Whether a queue clears `ACC` before it reads it, if it touches it at all (R121). -/
def clearsAccFirst : List MicroOp → Bool
  | [] => true
  | op :: q => op == .aclr || (!touchesAcc op && clearsAccFirst q)

theorem touchesAcc_of_isLineOp {op : MicroOp} (h : isLineOp op = true) : touchesAcc op = false := by
  cases op <;> simp_all [isLineOp, touchesAcc]

theorem clearsAccFirst_append {ops q : List MicroOp} (hops : ∀ op ∈ ops, isLineOp op = true)
    (hq : clearsAccFirst q = true) : clearsAccFirst (ops ++ q) = true := by
  induction ops with
  | nil => exact hq
  | cons op ops ih =>
    obtain ⟨hop, hops⟩ := List.forall_mem_cons.1 hops
    simp [clearsAccFirst, touchesAcc_of_isLineOp hop, ih hops]

/-- Whatever runs next clears `ACC` before it reads it. -/
def State.QueueClearsAcc (s : State) : Prop := ∀ q, s.seq = .run q → clearsAccFirst q = true

/-- Where the rest of the queue clears `ACC` first, so does what a micro-op leaves as the queue. -/
theorem microOp_queueClearsAcc (op : MicroOp) {q : List MicroOp} (hq : clearsAccFirst q = true) (s : State) :
    (microOp op q s).QueueClearsAcc := by
  cases hfinal : isFinal op with
  | true =>
    rcases microOp_seq_of_final hfinal q s with ⟨st, -, hseq⟩ | ⟨ops, st, hops, -, -, hseq⟩
    · exact fun _ hrun => Seq.noConfusion (hseq.symm.trans hrun)
    · exact State.forall_queue hseq (clearsAccFirst_append hops hq)
  | false =>
    rcases microOp_seq_of_not_final hfinal q s with hseq | ⟨rfl, hseq | hseq⟩
    · exact State.forall_queue hseq hq
    · exact State.forall_queue hseq hq
    · exact State.forall_queue hseq rfl

/-- Two runs that differ in `ACC` alone: either the queue cleared it and they meet, or neither of them touched it. -/
theorem drive_setAcc (k : Nat) (v : Half) : ∀ s : State, s.QueueClearsAcc →
    drive k (s.setAcc v) = drive k s ∨
      (drive k (s.setAcc v) = (drive k s).setAcc v ∧ (drive k s).acc = s.acc) := by
  induction k with
  | zero => exact fun _ _ => .inr ⟨rfl, rfl⟩
  | succ k ih =>
    intro s hs
    simp only [drive, State.setAcc_seq]
    split
    case h_1 op q hrun =>
      have hq : op = .aclr ∨ (touchesAcc op = false ∧ clearsAccFirst q = true) := by
        simpa [clearsAccFirst] using hs _ hrun
      rcases hq with rfl | ⟨hop, hq⟩
      · exact .inl rfl
      · rw [microOp_setAcc hop, ← microOp_acc hop q s]
        exact ih _ (microOp_queueClearsAcc op hq s)
    case h_2 => exact .inr ⟨rfl, rfl⟩
    case h_3 => exact .inr ⟨rfl, rfl⟩

theorem clearsAccFirst_program (i : Instr) : clearsAccFirst (program i) = true :=
  have h : ∀ q ∈ programs, clearsAccFirst q = true := by decide
  h _ (program_mem_programs i)

/-- A command from two states that differ in `ACC` alone. -/
theorem runCommand_setAcc (i : Instr) (s : State) (v : Half) :
    runCommand i.typeByte i.codeByte (program i) (s.setAcc v) = runCommand i.typeByte i.codeByte (program i) s ∨
      (runCommand i.typeByte i.codeByte (program i) (s.setAcc v) =
          (runCommand i.typeByte i.codeByte (program i) s).setAcc v ∧
        (runCommand i.typeByte i.codeByte (program i) s).acc = s.acc) :=
  drive_setAcc (commandSteps s) v (s.accept i.typeByte i.codeByte (program i))
    (State.forall_queue rfl (clearsAccFirst_program i))

/-- Settles O49: a command clears `ACC` before it reads it, or leaves it alone. -/
theorem oldAccumulatorInvisible : Obligations.OldAccumulatorInvisible := by
  intro i s v
  refine ⟨_, _, exec_eq i s, exec_eq i (s.setAcc v), ?_⟩
  rcases runCommand_setAcc i s v with hmeet | ⟨hkept, hacc⟩
  · rw [hmeet]
    exact ⟨rfl, .inl rfl⟩
  · rw [hkept]
    exact ⟨rfl, .inr ⟨hacc, rfl⟩⟩

end Sys2Proof.Machine
end

section
/-! PROOFS. The buffer: a store beyond it (R51, R124), a word read into it (R53, R124), and its owner from a passed wait to
the `DONE` (R62, R183). -/

namespace Sys2Proof.Machine

/-! ### A store beyond the buffer (R51, R124; log 12) -/

theorem runStep_of_store_beyond {op : MicroOp} {a : Nat} {s : State} (hoff : storeOffset op = some a)
    (ha : s.cbufSize ≤ a) (q : List MicroOp) : runStep s (op :: q) = .fault (.bufferOutOfRange a) := by
  simp only [runStep, hoff, if_neg (Nat.not_lt.2 ha)]

/-- Settles O16: both stores have their offset checked before they run. -/
theorem storeBeyondBufferFaults : Obligations.StoreBeyondBufferFaults := by
  intro s op a q hop ha hrun
  have hoff : storeOffset op = some a := by rcases hop with rfl | rfl <;> rfl
  rw [engineStep_of_run hrun, runStep_of_store_beyond hoff ha]

/-! ### A word read into the buffer (R53, R56, R124) -/

/-- The three stores that end a word (R53, R124). -/
def wordStores (j : Nat) : List MicroOp := [.stl (3 * j), .sth (3 * j + 1), .sth (3 * j + 2)]

theorem readWord_eq (m j : Nat) : readWord m j = .aclr :: (readPulses m ++ wordStores j) := rfl

theorem length_readWord (m j : Nat) : (readWord m j).length = 5 * m + 4 := by
  simp [readWord_eq, wordStores, length_readPulses]

theorem readWord_plain (m j : Nat) : ∀ op ∈ readWord m j, isPlain op = true := by
  have hstores : ∀ op ∈ wordStores j, isPlain op = true := by simp [wordStores, isPlain]
  exact List.forall_mem_cons.2 ⟨rfl, List.forall_mem_append.2 ⟨readPulses_plain m, hstores⟩⟩

theorem storeOffset_readPulses (m : Nat) : ∀ op ∈ readPulses m, storeOffset op = none := by
  induction m with
  | zero => simp [readPulses]
  | succ m ih =>
    have hpulse : ∀ op ∈ readPulse, storeOffset op = none := by decide
    exact List.forall_mem_append.2 ⟨hpulse, ih⟩

/-- Word `j` is stored at its own three offsets and nowhere else (R53). -/
theorem storeOffset_readWord {m j a : Nat} {op : MicroOp} (hop : op ∈ readWord m j) (ha : storeOffset op = some a) :
    3 * j ≤ a ∧ a ≤ 3 * j + 2 := by
  rw [readWord_eq, List.mem_cons, List.mem_append] at hop
  rcases hop with rfl | hpulse | hstore
  · cases ha
  · rw [storeOffset_readPulses m op hpulse] at ha
    cases ha
  · simp only [wordStores, List.mem_cons, List.not_mem_nil, or_false] at hstore
    rcases hstore with rfl | rfl | rfl <;> cases ha <;> omega

@[simp] theorem opStl_acc (a : Nat) (s : State) : (opStl a s).acc = s.acc := rfl
@[simp] theorem opSth_acc (a : Nat) (s : State) : (opSth a s).acc = s.acc := rfl
@[simp] theorem opStl_accLow (a : Nat) (s : State) : (opStl a s).accLow = s.accLow := rfl
@[simp] theorem opSth_accLow (a : Nat) (s : State) : (opSth a s).accLow = s.accLow := rfl
@[simp] theorem opStl_accHigh (a : Nat) (s : State) : (opStl a s).accHigh = s.accHigh := rfl
@[simp] theorem opSth_accHigh (a : Nat) (s : State) : (opSth a s).accHigh = s.accHigh := rfl

theorem opStl_cbufRead (a : Nat) (s : State) (b : Nat) :
    (opStl a s).cbufRead b = if b = a then s.accLow else s.cbufRead b :=
  State.cbufRead_cbufWrite s a b s.accLow

theorem opSth_cbufRead (a : Nat) (s : State) (b : Nat) :
    (opSth a s).cbufRead b = if b = a then s.accHigh else s.cbufRead b :=
  State.cbufRead_cbufWrite s a b s.accHigh

theorem acts_wordStores (j : Nat) (s : State) :
    acts (wordStores j) s = opSth (3 * j + 2) (opSth (3 * j + 1) (opStl (3 * j) s)) := by
  simp only [wordStores, acts_cons, acts_nil, act]

theorem acts_wordStores_acc (j : Nat) (s : State) : (acts (wordStores j) s).acc = s.acc := by
  simp [acts_wordStores]

/-- The bytes of a word are those of the accumulator it leaves: low, high, high again (R53, R123). -/
theorem acts_wordStores_cbufRead {j : Nat} {s t : State} (ht : t = acts (wordStores j) s) :
    t.cbufRead (3 * j) = t.accLow ∧ t.cbufRead (3 * j + 1) = t.accHigh ∧ t.cbufRead (3 * j + 2) = t.accHigh := by
  subst ht
  simp [acts_wordStores, opSth_cbufRead, opStl_cbufRead]

theorem acts_readWord (m j : Nat) (s : State) :
    acts (readWord m j) s = acts (wordStores j) (acts (readPulses m) (opAclr s)) := by
  rw [readWord_eq, acts_cons, acts_append]
  rfl

theorem acts_readWord_acc (m j : Nat) (s : State) : (acts (readWord m j) s).acc = (s.answers 0 m).foldl shiftIn 0 := by
  rw [acts_readWord, acts_wordStores_acc, acts_readPulses_acc]
  rfl

/-- The micro-ops of a word that fits the buffer run one after the other (R37 (b), R124). -/
theorem engineSteps_readWord {m j : Nat} {q : List MicroOp} {s : State} (hsize : 3 * j + 2 < s.cbufSize)
    (hrun : s.seq = .run (readWord m j ++ q)) :
    engineSteps (5 * m + 4) s = .next ((acts (readWord m j) s).resume q) := by
  have hfits : ∀ op ∈ readWord m j, ∀ a, storeOffset op = some a → a < s.cbufSize := fun op hop a ha =>
    lt_of_le_of_lt (storeOffset_readWord hop ha).2 hsize
  have hsteps := engineSteps_plain (readWord_plain m j) q 0 s hfits
  rwa [State.resume_self hrun, Nat.add_zero, length_readWord] at hsteps

/-- Settles O30: the pulses shift the samples into the cleared accumulator, and the three stores spread its bytes. -/
theorem readWordStoresThreeBytes : Obligations.ReadWordStoresThreeBytes := by
  intro m j q s hm hsize hrun
  obtain ⟨hlow, hmid, hhigh⟩ := acts_wordStores_cbufRead (acts_readWord m j s)
  refine ⟨_, engineSteps_readWord hsize hrun, rfl, fun i => ?_, hlow, hmid, hhigh, fun a ha => ?_⟩
  · rw [State.resume_acc, acts_readWord_acc, getLsbD_answers s 0 i hm, Nat.zero_add]
  · rw [State.resume_cbufRead]
    refine acts_cbufRead_other (fun op hop hoff => ?_) s
    have := storeOffset_readWord hop hoff
    omega

/-! ### The owner of the buffer after a passed wait (R62, R183; logs 9 and 14) -/

/-- The micro-ops that may stand in a queue after its wait has passed: no wait, and no `DONE` of a command that passes none. -/
def standsAfterWait : MicroOp → Bool
  | .waitIdle => false
  | .done st => st != .unknownCommand && st != .endpointTimeout
  | _ => true

/-- A running command has passed its wait. -/
def State.WaitPassed (s : State) : Prop := ∀ q, s.seq = .run q → ∀ op ∈ q, standsAfterWait op = true

theorem ownsBuffer_of_standsAfterWait {q : List MicroOp} (h : ∀ op ∈ q, standsAfterWait op = true) :
    ownsBuffer (.run q) = true := by
  have hhead : q.head? ≠ some .waitIdle := fun hop => nomatch h _ (List.mem_of_mem_head? hop)
  have hunknown : q.getLast? ≠ some (.done .unknownCommand) := fun hop => nomatch h _ (List.mem_of_mem_getLast? hop)
  have htimeout : q.getLast? ≠ some (.done .endpointTimeout) := fun hop => nomatch h _ (List.mem_of_mem_getLast? hop)
  simp [ownsBuffer, hhead, hunknown, htimeout]

theorem State.WaitPassed.ownsBuffer {s : State} (h : s.WaitPassed) (hrun : s.seq ≠ .idle) :
    ownsBuffer s.seq = true := by
  cases hq : s.seq with
  | idle => exact absurd hq hrun
  | run q => exact ownsBuffer_of_standsAfterWait (h q hq)

theorem standsAfterWait_of_isLineOp {op : MicroOp} (h : isLineOp op = true) : standsAfterWait op = true := by
  cases op <;> simp_all [isLineOp, standsAfterWait]

theorem standsAfterWait_program_tail {i : Instr} (h : waitsForIdle i = true) :
    ∀ op ∈ (program i).tail, standsAfterWait op = true := by
  have hall : (program i).tail.all (fun op => !waitsForIdle i || standsAfterWait op) = true := by cases i <;> rfl
  simpa [h] using hall

/-- A passed wait leaves the rest of the program (R143). -/
theorem waitPassed_of_engineStep {i : Instr} {s t : State} (hwaits : waitsForIdle i = true)
    (hrun : s.seq = .run (program i)) (hbusy : s.epBusy = false) (h : engineStep s = .next t) : t.WaitPassed := by
  rw [program_of_waits hwaits] at hrun
  rw [engineStep_of_run hrun, runStep_of_fits rfl] at h
  cases h
  rw [show microOp .waitIdle (program i).tail s = _ from opWaitIdle_pass hbusy _]
  exact State.forall_queue rfl (standsAfterWait_program_tail hwaits)

/-- Where no wait stands in the queue, none comes into it, and no `DONE` of a command that passes none. -/
theorem microOp_waitPassed {op : MicroOp} {q : List MicroOp} (hop : standsAfterWait op = true)
    (hq : ∀ o ∈ q, standsAfterWait o = true) (s : State) : (microOp op q s).WaitPassed := by
  cases hfinal : isFinal op with
  | true =>
    rcases microOp_seq_of_final hfinal q s with ⟨st, -, hseq⟩ | ⟨ops, st, hops, htimeout, hunknown, hseq⟩
    · exact fun _ hrun => Seq.noConfusion (hseq.symm.trans hrun)
    · have hdone : standsAfterWait (.done st) = true := by simp [standsAfterWait, htimeout, hunknown]
      exact State.forall_queue hseq (List.forall_mem_append.2
        ⟨fun o ho => standsAfterWait_of_isLineOp (hops o ho), List.forall_mem_cons.2 ⟨hdone, hq⟩⟩)
  | false =>
    rcases microOp_seq_of_not_final hfinal q s with hseq | ⟨rfl, -⟩
    · exact State.forall_queue hseq hq
    · cases hop

theorem State.WaitPassed.engineStep {s t : State} (h : s.WaitPassed) (hrun : s.seq ≠ .idle)
    (hstep : engineStep s = .next t) : t.WaitPassed := by
  rcases engineStep_next_cases hstep with ⟨i, hidle, -⟩ | ⟨hidle, -⟩ | ⟨op, q, hq, -, rfl⟩
  · exact absurd hidle hrun
  · exact absurd hidle hrun
  · obtain ⟨hop, hrest⟩ := List.forall_mem_cons.1 (h _ hq)
    exact microOp_waitPassed hop hrest s

theorem engineSteps_succ_next {k : Nat} {s u : State} (h : engineSteps (k + 1) s = .next u) :
    ∃ t, engineStep s = .next t ∧ engineSteps k t = .next u := by
  cases hstep : engineStep s with
  | next t => exact ⟨t, rfl, by rwa [engineSteps_of_next hstep] at h⟩
  | fault f => simp [engineSteps, hstep] at h
  | refused r => simp [engineSteps, hstep] at h

/-- A command that has passed its wait has passed it through every later step before the block is idle. -/
theorem State.WaitPassed.engineSteps {k : Nat} {u : State} : ∀ {s : State}, s.WaitPassed →
    (∀ j v, j ≤ k → engineSteps j s = .next v → v.seq ≠ .idle) → engineSteps k s = .next u → u.WaitPassed := by
  induction k with
  | zero =>
    intro s h _ hsteps
    cases hsteps
    exact h
  | succ k ih =>
    intro s h hbusy hsteps
    obtain ⟨t, hstep, hrest⟩ := engineSteps_succ_next hsteps
    refine ih (h.engineStep (hbusy 0 s (Nat.zero_le _) rfl) hstep) (fun j v hj hv => ?_) hrest
    exact hbusy (j + 1) v (Nat.succ_le_succ hj) ((engineSteps_of_next hstep j).trans hv)

theorem usbcStep_setBusy_of_owned {s : State} (h : ownsBuffer s.seq = true) :
    usbcStep .setBusy s = .refused .bufferOwned :=
  if_pos h

theorem usbcStep_takeReply_of_running {s : State} (h : s.seq ≠ .idle) :
    usbcStep .takeReply s = .refused .noReplyDue :=
  if_neg fun hfree => h hfree.1

theorem usbcStep_present_of_running {s : State} (h : s.seq ≠ .idle) (type code : Byte) (len : Half)
    (payload : List Byte) : usbcStep (.present type code len payload) s = .refused .requestOverlap :=
  if_neg fun hfree => h hfree.1

theorem State.bufferOpen_of_owned {s : State} (hrun : s.seq ≠ .idle) (h : ownsBuffer s.seq = true) :
    s.bufferOpen = false := by
  simp [State.bufferOpen_of_running hrun, h]

/-- Settles O55: the passed wait is kept until the block is idle, and while it holds `ENGINE` owns the buffer. -/
theorem engineOwnsBufferUntilDone : Obligations.EngineOwnsBufferUntilDone := by
  intro i s t u k hwaits hseq hbusy hstep hsteps hruns
  have hrun : u.seq ≠ .idle := hruns k u le_rfl hsteps
  have hown : ownsBuffer u.seq = true :=
    ((waitPassed_of_engineStep hwaits hseq hbusy hstep).engineSteps hruns hsteps).ownsBuffer hrun
  exact ⟨usbcStep_setBusy_of_owned hown, usbcStep_takeReply_of_running hrun,
    usbcStep_writeByte_of_closed (State.bufferOpen_of_owned hrun hown), usbcStep_present_of_running hrun⟩

end Sys2Proof.Machine
end

section
/-! PROOFS. The decoder against the encoder and the opcode table (R80, R82, R86), and what becomes of a pending request of
another type (R82, R140). -/

namespace Sys2Proof

/-! ### Selected and other type bytes (R82, R142) -/

@[simp] theorem dirOfType_typeByte (d : Dir) : dirOfType d.typeByte = some d := by
  cases d <;> rfl

theorem dirOfType_of_other {t : Byte} (hdown : t ≠ 0x40) (hup : t ≠ 0xC0) : dirOfType t = none := by
  rw [dirOfType, if_neg hdown, if_neg hup]

theorem selects_iff {t : Byte} : t = 0x40 ∨ t = 0xC0 ↔ ∃ d : Dir, t = d.typeByte := by
  constructor
  · rintro (rfl | rfl)
    · exact ⟨.download, rfl⟩
    · exact ⟨.upload, rfl⟩
  · rintro ⟨_ | _, rfl⟩
    · exact .inl rfl
    · exact .inr rfl

/-! ### Decoding a header and a command word (R80, R141) -/

@[simp] theorem decodeHeader_typeByte (d : Dir) (c : Byte) : decodeHeader d.typeByte c = .instr (decodeCommand d c) := by
  simp only [decodeHeader, dirOfType_typeByte]

theorem decodeHeader_of_other {t : Byte} (ht : ¬(t = 0x40 ∨ t = 0xC0)) (c : Byte) :
    decodeHeader t c = .rejected (.notSelected t) := by
  obtain ⟨hdown, hup⟩ := not_or.1 ht
  simp only [decodeHeader, dirOfType_of_other hdown hup]

@[simp] theorem decode_append (t c : Byte) : decode (t ++ c) = decodeHeader t c := by
  rw [decode, cwType_append, cwCode_append]

theorem decode_of_other {cw : Half} (h : ¬(cwType cw = 0x40 ∨ cwType cw = 0xC0)) :
    decode cw = .rejected (.notSelected (cwType cw)) :=
  decodeHeader_of_other h _

/-- A code that rules R148 to R152 leave out stands for `UNKNOWN` (R88, R153). -/
theorem decodeCommand_of_not_defined {d : Dir} {c : Byte} (h : definedCommand d c = false) :
    decodeCommand d c = .unknown d c := by
  cases d <;> simp_all [definedCommand, decodeCommand]

/-- The bytes of a well-formed command decode to it (R86, R141). -/
theorem decodeHeader_bytes {i : Instr} (hwf : i.wellFormed = true) :
    decodeHeader i.typeByte i.codeByte = .instr i := by
  cases i with
  | spiWr => rfl
  | spiRd => rfl
  | trigWr => rfl
  | statRd d => cases d <;> rfl
  | cepdWr => rfl
  | unknown d c =>
    have hother : definedCommand d c = false := by simpa [Instr.wellFormed] using hwf
    exact (decodeHeader_typeByte d c).trans (congrArg _ (decodeCommand_of_not_defined hother))

/-- Settles O1: the word splits into the two bytes of the command, and these decode to it. -/
theorem decodeOfEncodeIsIdentity : Obligations.DecodeOfEncodeIsIdentity := by
  intro i hwf
  rw [encode, decode_append, decodeHeader_bytes hwf]

/-- Settles O2: the command has the bytes of the word, and these make up the word. -/
theorem encodeOfDecodeIsIdentity : Obligations.EncodeOfDecodeIsIdentity := by
  intro cw i hdec
  obtain ⟨htype, hcode⟩ := bytes_of_decodeHeader hdec
  refine ⟨wellFormed_of_decodeHeader hdec, ?_⟩
  rw [encode, htype, hcode, cwType_append_cwCode]

/-- Settles O4: a type byte that selects the block decodes, and any other is the one the rejection names. -/
theorem rejectedExactlyOtherTypes : Obligations.RejectedExactlyOtherTypes := by
  intro cw e
  by_cases hsel : cwType cw = 0x40 ∨ cwType cw = 0xC0
  · obtain ⟨d, hd⟩ := selects_iff.1 hsel
    have hdec : decode cw = .instr (decodeCommand d (cwCode cw)) := by rw [decode, hd, decodeHeader_typeByte]
    simp only [hdec, reduceCtorEq, false_iff]
    rintro ⟨hdown, hup, -⟩
    exact hsel.elim hdown hup
  · obtain ⟨hdown, hup⟩ := not_or.1 hsel
    rw [decode_of_other hsel, Decoded.rejected.injEq]
    exact ⟨fun he => ⟨hdown, hup, he.symm⟩, fun ⟨_, _, he⟩ => he.symm⟩

/-- Settles O5: the words are evaluated. -/
theorem sampleWordsDecode : Obligations.SampleWordsDecode := by
  unfold Obligations.SampleWordsDecode
  decide

/-! ### The rows of the opcode table (R86) -/

/-- The mnemonics of the rows that take a command word. -/
def takingMnemonics (cw : Half) : List String :=
  (opcodeTable.filter fun r => r.takes cw).map fun r => r.mnemonic

/-- Under either direction the five defined rows and the nine `UNKNOWN` patterns cut the 256 codes into disjoint parts: each
code is looked up (R86 to R88). -/
theorem takingMnemonics_selected (d : Dir) : ∀ c : Byte,
    takingMnemonics (d.typeByte ++ c) = [(decodeCommand d c).mnemonic] := by
  cases d with
  | download => decide
  | upload => decide

/-- Every row fixes the seven type bits below the direction to those of `0x40` and `0xC0` (R82, R86). -/
theorem opcodeTable_typeBits : ∀ r ∈ opcodeTable, r.mask &&& 0x7F00 = 0x7F00 ∧ r.value &&& 0x7F00 = 0x4000 := by
  decide

theorem selects_of_typeBits : ∀ t : Byte, t &&& 0x7F = 0x40 → t = 0x40 ∨ t = 0xC0 := by
  decide

theorem selects_of_takes {r : OpcodeRow} {cw : Half} (hr : r ∈ opcodeTable) (h : r.takes cw = true) :
    cwType cw = 0x40 ∨ cwType cw = 0xC0 := by
  obtain ⟨hmask, hvalue⟩ := opcodeTable_typeBits r hr
  have hword : cw &&& 0x7F00 = 0x4000 :=
    calc cw &&& 0x7F00 = cw &&& r.mask &&& 0x7F00 := by rw [BitVec.and_assoc, hmask]
      _ = r.value &&& 0x7F00 := by rw [beq_iff_eq.1 h]
      _ = 0x4000 := hvalue
  have htype : cwType cw &&& 0x7F = 0x40 := BitVec.extractLsb'_and.symm.trans (congrArg cwType hword)
  exact selects_of_typeBits _ htype

theorem takingMnemonics_of_other {cw : Half} (h : ¬(cwType cw = 0x40 ∨ cwType cw = 0xC0)) : takingMnemonics cw = [] := by
  have hnone : opcodeTable.filter (fun r => r.takes cw) = [] :=
    List.filter_eq_nil_iff.2 fun _ hr htakes => h (selects_of_takes hr htakes)
  rw [takingMnemonics, hnone, List.map_nil]

/-- Settles O3: the word has a direction's type byte above its code, and the table is looked up, or its type bits differ from
those every row asks for. -/
theorem oneOpcodeRowPerCommandWord : Obligations.OneOpcodeRowPerCommandWord := by
  intro cw
  by_cases hsel : cwType cw = 0x40 ∨ cwType cw = 0xC0
  · obtain ⟨d, hd⟩ := selects_iff.1 hsel
    have hword : cw = d.typeByte ++ cwCode cw := by rw [← hd, cwType_append_cwCode]
    rw [hword, decode_append, decodeHeader_typeByte]
    exact takingMnemonics_selected d _
  · rw [decode_of_other hsel]
    exact takingMnemonics_of_other hsel

/-! ### A pending request of another type (R82, R140; log 13) -/

namespace Machine

theorem engineStep_not_selected {s : State} (hidle : s.seq = .idle) (hreq : s.reqValid = true)
    (hother : ¬(s.reqType = 0x40 ∨ s.reqType = 0xC0)) : engineStep s = .refused (.notSelected s.reqType) := by
  simp only [engineStep, hidle, acceptStep, hreq, if_true, decodeHeader_of_other hother]

theorem step_not_selected {s : State} (hsched : s.schedule = []) (hidle : s.seq = .idle) (hreq : s.reqValid = true)
    (hother : ¬(s.reqType = 0x40 ∨ s.reqType = 0xC0)) : step s = .refused (.notSelected s.reqType) := by
  have hpend : s.pending = some (.rejected (.notSelected s.reqType)) :=
    (if_pos ⟨hidle, hreq⟩).trans (congrArg some (decodeHeader_of_other hother _))
  simp only [step, hsched, hpend]

/-- Settles O7: a request of a direction's type byte decodes and is accepted; any other is rejected by its byte. -/
theorem otherRequestTypesRefused : Obligations.OtherRequestTypesRefused := by
  intro s hidle hreq
  split_ifs with hsel
  · obtain ⟨d, hd⟩ := selects_iff.1 hsel
    have hdec : decodeHeader s.reqType s.reqCode = .instr (decodeCommand d s.reqCode) := by
      rw [hd, decodeHeader_typeByte]
    exact ⟨_, engineStep_accept hidle hreq hdec⟩
  · exact ⟨engineStep_not_selected hidle hreq hsel, fun hsched => step_not_selected hsched hidle hreq hsel⟩

end Machine

end Sys2Proof
end

section
/-! PROOFS. The line driver (family 40): one micro-op as a step of `ENGINE`, what `SET`, `CLR` and `HOLD` do in it (R101,
R102, R105), and the port bits no micro-op drives (R104). -/

namespace Sys2Proof.Machine

/-- A micro-op whose operand fits the buffer is the step of a running block (R37 (b)). -/
theorem engineStep_of_fits {op : MicroOp} {q : List MicroOp} {s : State} (hrun : s.seq = .run (op :: q))
    (hfits : operandFits s.cbufSize op = true) : engineStep s = .next (microOp op q s) := by
  rw [engineStep_of_run hrun, runStep_of_fits hfits]

/-! ### `SET`, `CLR` and `HOLD` (R101, R102, R105) -/

theorem microOp_set_line (l k : Line) (q : List MicroOp) (s : State) :
    (microOp (.set l) q s).line k = if k = l then true else s.line k := by
  have hline : (microOp (.set l) q s).line k = (decide (k = l) || s.line k) := s.line_raiseLine l k
  rw [hline]
  by_cases hk : k = l <;> simp [hk]

theorem microOp_clr_line (l k : Line) (q : List MicroOp) (s : State) :
    (microOp (.clr l) q s).line k = if k = l then false else s.line k := by
  have hline : (microOp (.clr l) q s).line k = (!decide (k = l) && s.line k) := s.line_lowerLine l k
  rw [hline]
  by_cases hk : k = l <;> simp [hk]

/-- Settles O9: the step is `SET`'s own effect, whose mask is the line's bit alone, the six positions being distinct. -/
theorem setDrivesLineHigh : Obligations.SetDrivesLineHigh := fun s l q hrun =>
  ⟨_, engineStep_of_fits hrun rfl, rfl, fun k => microOp_set_line l k q s⟩

/-- Settles O10: the step is `CLR`'s own effect, whose mask is the line's bit alone, the six positions being distinct. -/
theorem clrDrivesLineLow : Obligations.ClrDrivesLineLow := fun s l q hrun =>
  ⟨_, engineStep_of_fits hrun rfl, rfl, fun k => microOp_clr_line l k q s⟩

/-- Settles O12: the step is `HOLD`'s own effect, one event. -/
theorem holdChangesOnlyTrace : Obligations.HoldChangesOnlyTrace := fun _ _ hrun => engineStep_of_fits hrun rfl

/-! ### The port bits that are no line (R104) -/

theorem opWaitIdle_portBit (q : List MicroOp) (s : State) (i : Nat) : (opWaitIdle q s).portBit i = s.portBit i := by
  unfold opWaitIdle
  split
  · rfl
  · split
    · rfl
    · split <;> rfl

theorem opStageW_portBit (st : Strobe) (q : List MicroOp) (s : State) (i : Nat) :
    (opStageW st q s).portBit i = s.portBit i := by
  cases hcount : s.refusesCount s.payloadCount with
  | true => rw [opStageW_refused hcount]; rfl
  | false => rw [opStageW_expands hcount]; rfl

/-- Only `SET` and `CLR` write the port, and each only its line's bit. -/
theorem microOp_portBit (op : MicroOp) (q : List MicroOp) {s : State} {i : Nat} (hi : ∀ l, i ≠ s.params.pin l) :
    (microOp op q s).portBit i = s.portBit i := by
  cases op with
  | set l => simp [microOp, opSet, State.portBit_raiseLine, hi l]
  | clr l => simp [microOp, opClr, State.portBit_lowerLine, hi l]
  | waitIdle => exact opWaitIdle_portBit q s i
  | stageW st => exact opStageW_portBit st q s i
  | hold | aclr | shin | stl | sth | arm | stageE | done => rfl

/-- Settles O11: a step of a running block is one micro-op, and none writes a bit of no line. -/
theorem otherPortBitsKept : Obligations.OtherPortBitsKept := by
  intro s t q hrun hstep i hi
  rw [engineStep_of_run hrun] at hstep
  cases q with
  | nil => cases hstep
  | cons op q =>
    obtain ⟨-, rfl⟩ := runStep_cons_next hstep
    exact microOp_portBit op q hi

end Sys2Proof.Machine
end

section
/-! PROOFS. The write path (family 41): the state `SPI.WR` and `TRIG.WR` complete in (R117), the trace of a write as pulses on
`CLK` (R111, R113, R115), and all that a write command leaves alone (R104, R110). -/

namespace Sys2Proof.Machine

/-! ### The completed write (R117, R148, R150) -/

theorem exec_writeCommand (st : Strobe) (s : State) :
    exec (writeCommand st) s = .next (runCommand 0x40 (writeCommand st).codeByte (programWrite st) s) := by
  cases st <;> rfl

/-- A write command with its word and count staged, the free bits of positions 32 and above drawn (R144; log 5). -/
def State.stagedWrite (s : State) (st : Strobe) : State :=
  ((s.begun 0x40 (writeCommand st).codeByte).loadSerialWord s.payloadWord s.payloadCount).countDraws
    (s.payloadCount.toNat - 32)

/-- The micro-ops of a write of the payload (R111). -/
def State.payloadWrite (s : State) (st : Strobe) : List MicroOp :=
  uopsWrite s.drawAt s.payloadCount.toNat s.payloadWord st

/-- The state a write command completes in. -/
def State.written (s : State) (st : Strobe) : State := (acts (s.payloadWrite st) (s.stagedWrite st)).finish .ok

/-- A write that is not held and whose count is not refused completes. -/
theorem exec_writeCommand_completes {s : State} (hbusy : s.epBusy = false)
    (hcount : s.refusesCount s.payloadCount = false) (st : Strobe) :
    exec (writeCommand st) s = .next (s.written st) := by
  rw [exec_writeCommand, runCommand_write hbusy _ _ st hcount]
  rfl

theorem State.payloadWrite_lineOps (s : State) (st : Strobe) : ∀ op ∈ s.payloadWrite st, isLineOp op = true :=
  uopsWrite_lineOps _ _ _ _

/-- The level of each line after a write (R117). -/
theorem State.written_line (s : State) (st : Strobe) (l : Line) :
    (s.written st).line l =
      if l = strobeLine st then false
      else if l = .clk then (if s.payloadCount.toNat = 0 then s.line .clk else false)
      else if l = .data then (if s.payloadCount.toNat = 0 then s.line .data else s.payloadWord.getLsbD 0)
      else s.line l := by
  have hbase : (s.stagedWrite st).line l = s.line l := rfl
  rw [State.written, State.finish_line, acts_line, State.payloadWrite, levelAfter_uopsWrite, hbase]
  cases l <;> rfl

/-- The trace of a write command (R148, R150). -/
theorem State.written_trace (s : State) (st : Strobe) :
    (s.written st).trace = s.trace
      ++ [.request 0x40 (writeCommand st).codeByte, .idle, .loadWord s.payloadWord s.payloadCount]
      ++ writeTrace s.drawAt s.payloadCount.toNat s.payloadWord st ++ [.done .ok] := by
  rw [State.written, State.finish_trace, acts_lineOps_trace (s.payloadWrite_lineOps st), State.payloadWrite,
    map_lineEvent_uopsWrite]
  simp [State.stagedWrite]

theorem State.written_cbufRead (s : State) (st : Strobe) (a : Nat) : (s.written st).cbufRead a = s.cbufRead a :=
  acts_lineOps_cbufRead (s.payloadWrite_lineOps st) (s.stagedWrite st) a

theorem State.written_acc (s : State) (st : Strobe) : (s.written st).acc = s.acc :=
  acts_lineOps_acc (s.payloadWrite_lineOps st) (s.stagedWrite st)

theorem State.written_replyLen (s : State) (st : Strobe) : (s.written st).replyLen = s.replyLen :=
  acts_lineOps_replyLen (s.payloadWrite_lineOps st) (s.stagedWrite st)

theorem strobeLine_ne_clk (st : Strobe) : strobeLine st ≠ .clk := by cases st <;> decide

theorem strobeLine_ne_data (st : Strobe) : strobeLine st ≠ .data := by cases st <;> decide

/-- Settles O23: the write is its line micro-ops run from the staged state, which write no field but the port and the trace. -/
theorem writeCommandResult : Obligations.WriteCommandResult := by
  intro st s hbusy hcount
  refine ⟨s.written st, exec_writeCommand_completes hbusy hcount st, rfl, acts_reqValid _ _, acts_waitCnt _ _,
    acts_swWord _ _, acts_swCount _ _, ?_, ?_, ?_, ?_, s.written_acc st, s.written_cbufRead st, s.written_replyLen st,
    s.written_trace st⟩
  · rw [State.written_line, if_pos rfl]
  · rw [State.written_line, if_neg (strobeLine_ne_clk st).symm, if_pos rfl]
  · rw [State.written_line, if_neg (strobeLine_ne_data st).symm, if_neg (by decide), if_pos rfl]
  · intro l hstrobe hclk hdata
    rw [State.written_line, if_neg hstrobe, if_neg hclk, if_neg hdata]

/-! ### The bits a write drives (R55, R111) -/

@[simp] theorem length_writeBits (draw : Nat → Bool) (n : Nat) (w : Word) : (writeBits draw n w).length = n := by
  simp [writeBits]

/-- The bit driven `i`-th is that of position `n - 1 - i`. -/
theorem getElem?_writeBits (draw : Nat → Bool) (w : Word) {n i p : Nat} (h : i + p + 1 = n) :
    (writeBits draw n w)[i]? = some (wordBit draw w p) := by
  obtain rfl : p = n - 1 - i := by omega
  have hi : i < n := by omega
  simp [writeBits, hi]

/-- Up to count 32 every bit driven is one of the word (R113). -/
theorem writeBits_of_le (draw : Nat → Bool) (w : Word) {n : Nat} (hn : n ≤ 32) :
    writeBits draw n w = (List.range n).map (fun i => (w >>> (n - 1 - i)).getLsbD 0) := by
  refine List.map_congr_left fun i hi => ?_
  have hp : n - 1 - i < 32 := by
    have := List.mem_range.1 hi
    omega
  rw [wordBit, if_pos hp, BitVec.getLsbD_ushiftRight, Nat.add_zero]

/-! ### The trace of a write (R111, R113, R118)

Each fact holds of one group, then of the groups by induction over the bits, then of the whole write, whose strobe pulse has
no part in it. -/

theorem groupsTrace_cons (b : Bool) (bs : List Bool) : groupsTrace (b :: bs) = groupTrace b ++ groupsTrace bs := rfl

theorem length_groupsTrace (bs : List Bool) : (groupsTrace bs).length = 5 * bs.length := by
  induction bs with
  | nil => rfl
  | cons b bs ih =>
    rw [groupsTrace_cons, List.length_append, ih, List.length_cons, groupTrace]
    simp only [List.length_cons, List.length_nil]
    omega

theorem length_writeTrace (draw : Nat → Bool) (n : Nat) (w : Word) (st : Strobe) :
    (writeTrace draw n w st).length = 5 * n + 5 := by
  simp only [writeTrace, List.length_append, length_groupsTrace, length_writeBits, List.length_cons, List.length_nil]
  omega

/-- A group has one event of each edge of `CLK`. -/
theorem countP_groupTrace {e : Event} (he : e = .up .clk ∨ e = .down .clk) (b : Bool) :
    (groupTrace b).countP (· == e) = 1 := by
  rcases he with rfl | rfl <;> cases b <;> rfl

theorem countP_groupsTrace {e : Event} (he : e = .up .clk ∨ e = .down .clk) (bs : List Bool) :
    (groupsTrace bs).countP (· == e) = bs.length := by
  induction bs with
  | nil => rfl
  | cons b bs ih => rw [groupsTrace_cons, List.countP_append, countP_groupTrace he, ih, List.length_cons, Nat.add_comm]

/-- A write has `n` events of each edge of `CLK`. -/
theorem countP_writeTrace {e : Event} (he : e = .up .clk ∨ e = .down .clk) (draw : Nat → Bool) (n : Nat) (w : Word)
    (st : Strobe) : (writeTrace draw n w st).countP (· == e) = n := by
  have hbefore : [Event.down (strobeLine st)].countP (· == e) = 0 := by
    rcases he with rfl | rfl <;> cases st <;> rfl
  have hafter : [Event.hold, .up (strobeLine st), .hold, .down (strobeLine st)].countP (· == e) = 0 := by
    rcases he with rfl | rfl <;> cases st <;> rfl
  rw [writeTrace, List.countP_append, List.countP_append, hbefore, hafter, countP_groupsTrace he, length_writeBits,
    Nat.zero_add, Nat.add_zero]

/-- A group drives `DATA` directly before its pulse and not within it. -/
theorem clockAfterData_groupTrace (fresh b : Bool) (tr : List Event) :
    clockAfterData false fresh (groupTrace b ++ tr) = clockAfterData false false tr := by
  cases b <;> rfl

theorem clockAfterData_groupsTrace (bs : List Bool) (tr : List Event) :
    clockAfterData false false (groupsTrace bs ++ tr) = clockAfterData false false tr := by
  induction bs with
  | nil => rfl
  | cons b bs ih => rw [groupsTrace_cons, List.append_assoc, clockAfterData_groupTrace, ih]

theorem clockAfterData_writeTrace (draw : Nat → Bool) (n : Nat) (w : Word) (st : Strobe) :
    clockAfterData false false (writeTrace draw n w st) = true := by
  have hstrobe (tr : List Event) :
      clockAfterData false false (.down (strobeLine st) :: tr) = clockAfterData false false tr := by
    cases st <;> rfl
  rw [writeTrace, List.append_assoc, List.singleton_append, hstrobe, clockAfterData_groupsTrace]
  cases st <;> rfl

/-- From `CLK` low a group hands the chip its bit. -/
theorem shiftedOut_groupTrace (data b : Bool) (tr : List Event) :
    shiftedOut false data (groupTrace b ++ tr) = b :: shiftedOut false b tr := by
  cases b <;> rfl

theorem shiftedOut_groupsTrace {tr : List Event} (htr : ∀ data, shiftedOut false data tr = []) (bs : List Bool) :
    ∀ data, shiftedOut false data (groupsTrace bs ++ tr) = bs := by
  induction bs with
  | nil => exact htr
  | cons b bs ih =>
    intro data
    rw [groupsTrace_cons, List.append_assoc, shiftedOut_groupTrace, ih]

/-- From `CLK` low the chip takes every bit a write drives, in order (R118). -/
theorem shiftedOut_writeTrace (draw : Nat → Bool) (n : Nat) (w : Word) (st : Strobe) (data : Bool) :
    shiftedOut false data (writeTrace draw n w st) = writeBits draw n w := by
  have hbefore (tr : List Event) : shiftedOut false data (.down (strobeLine st) :: tr) = shiftedOut false data tr := by
    cases st <;> rfl
  have hafter (d : Bool) :
      shiftedOut false d [Event.hold, .up (strobeLine st), .hold, .down (strobeLine st)] = [] := by
    cases st <;> rfl
  rw [writeTrace, List.append_assoc, List.singleton_append, hbefore, shiftedOut_groupsTrace hafter]

/-- No count from 1 to 32 is refused (R144). -/
theorem State.refusesCount_of_inRange (s : State) {n : Byte} (hlow : 1 ≤ n.toNat) (hhigh : n.toNat ≤ 32) :
    s.refusesCount n = false := by
  have hzero : n.toNat ≠ 0 := by omega
  simp [State.refusesCount, countOutsideRange, hzero, hhigh]

/-- Settles O24: the events are those of the write, and up to count 32 its bits are the word's. -/
theorem writeClocksEveryBitOnce : Obligations.WriteClocksEveryBitOnce := by
  intro st s hbusy hlow hhigh
  refine ⟨s.written st, writeTrace s.drawAt s.payloadCount.toNat s.payloadWord st,
    exec_writeCommand_completes hbusy (s.refusesCount_of_inRange hlow hhigh) st, s.written_trace st,
    countP_writeTrace (.inl rfl) .., countP_writeTrace (.inr rfl) .., clockAfterData_writeTrace .., ?_⟩
  rw [shiftedOut_writeTrace, writeBits_of_le _ _ hhigh]

/-- Settles O25: the chip takes one bit per group, and below position 32 it is the word's. -/
theorem countGivesNumberOfPulses : Obligations.CountGivesNumberOfPulses := by
  intro st s hbusy hcount _
  refine ⟨s.written st, writeTrace s.drawAt s.payloadCount.toNat s.payloadWord st,
    exec_writeCommand_completes hbusy hcount st, s.written_trace st, length_writeTrace ..,
    countP_writeTrace (.inl rfl) .., ?_, fun i p hip hp => ?_⟩
  · rw [shiftedOut_writeTrace, length_writeBits]
  · rw [shiftedOut_writeTrace, getElem?_writeBits _ _ hip, wordBit, if_pos hp]

/-! ### What a write command leaves alone (R104, R110) -/

/-- What is the same before and after a write command with strobe `st`, however it ends. -/
structure WriteFrame (st : Strobe) (s t : State) : Prop where
  platform : SamePlatform s t
  header : SameHeader s t
  input : SameInput s t
  acc : t.acc = s.acc
  enCode : t.enCode = s.enCode
  replyLen : t.replyLen = s.replyLen
  buffer : sameBufferFrom 0 s t
  port : samePortBut [strobeLine st, .data, .clk] s t

/-- Staging, the wait, the trace and the sequencer are within the frame of a write. -/
theorem WriteFrame.of_bookkeeping (st : Strobe) (s : State) (word : Word) (count : Byte) (valid : Bool) (sq : Seq)
    (wait drawn : Nat) (tr : List Event) :
    WriteFrame st s { s with
      swWord := word, swCount := count, reqValid := valid, seq := sq, waitCnt := wait, draws := drawn, trace := tr } where
  platform := ⟨rfl, rfl, rfl, rfl, rfl⟩
  header := ⟨rfl, rfl, rfl⟩
  input := ⟨rfl, rfl⟩
  acc := rfl
  enCode := rfl
  replyLen := rfl
  buffer _ _ := rfl
  port _ _ := rfl

/-- A completed write drives its strobe, `DATA` and `CLK`, and beside them no bit of the port. -/
theorem State.written_writeFrame (s : State) (st : Strobe) : WriteFrame st s (s.written st) where
  platform := ⟨acts_params _ _, acts_resets _ _, acts_schedule _ _, acts_hostReplies _ _, acts_epBusy _ _⟩
  header := ⟨acts_reqType _ _, acts_reqCode _ _, acts_reqLen _ _⟩
  input := ⟨acts_lineOps_portIn (s.payloadWrite_lineOps st) (s.stagedWrite st),
    acts_lineOps_dutAnswers (s.payloadWrite_lineOps st) (s.stagedWrite st)⟩
  acc := s.written_acc st
  enCode := acts_enCode _ _
  replyLen := s.written_replyLen st
  buffer a _ := s.written_cbufRead st a
  port i hi := by
    have hdriven : ∀ l, (MicroOp.set l ∈ s.payloadWrite st ∨ MicroOp.clr l ∈ s.payloadWrite st) →
        i ≠ (s.stagedWrite st).params.pin l := fun l hl => hi l (by simpa using mem_uopsWrite_line hl)
    exact acts_portBit hdriven

/-- The four ends of a write command: held, given up, its count refused, completed (R143, R144). -/
theorem exec_writeCommand_frame {st : Strobe} {s t : State} (h : exec (writeCommand st) s = .next t) :
    WriteFrame st s t := by
  rw [exec_writeCommand] at h
  cases h
  cases hbusy : s.epBusy with
  | true =>
    rw [programWrite]
    cases hlimit : s.params.epWaitLimit with
    | none =>
      rw [runCommand_held hbusy hlimit]
      exact .of_bookkeeping ..
    | some limit =>
      rw [runCommand_timeout hbusy hlimit]
      exact .of_bookkeeping ..
  | false =>
    cases hcount : s.refusesCount s.payloadCount with
    | true =>
      rw [runCommand_refused hbusy _ _ st hcount]
      exact .of_bookkeeping ..
    | false =>
      rw [runCommand_write hbusy _ _ st hcount]
      exact s.written_writeFrame st

/-- Settles O39: each end of a write command keeps the frame. -/
theorem writeCommandFrame : Obligations.WriteCommandFrame := by
  intro st s t h
  obtain ⟨hplatform, hheader, hinput, hacc, hcode, hreply, hbuffer, hport⟩ := exec_writeCommand_frame h
  exact ⟨hplatform, hheader, hinput, hacc, hcode, hreply, hbuffer, hport⟩

end Sys2Proof.Machine
end

section
/-! PROOFS. The read path (family 42): `ACLR`, `SHIN` and the stores as steps of `ENGINE` (R121 to R123), the state `SPI.RD`
completes in (R126), and all that a read command leaves alone (R104, R149, R151). -/

namespace Sys2Proof.Machine

/-! ### `ACLR`, `SHIN`, `STL` and `STH` (R121, R122, R123) -/

/-- Settles O13: the step is `ACLR`'s own effect, the cleared accumulator and one event. -/
theorem aclrClearsAccumulator : Obligations.AclrClearsAccumulator := fun _ _ hrun => engineStep_of_fits hrun rfl

/-- What the line reads after `SHIN` is what the DUT drove, so the sample is its next answer (R28, R122). -/
theorem microOp_shin (q : List MicroOp) (s : State) :
    microOp .shin q s = { s.dutDrive with
      acc := shiftIn s.acc (s.answerAt 0), trace := s.trace ++ [.sample (s.answerAt 0)], seq := .run q } := by
  rw [← s.readLine_dutDrive]
  rfl

/-- Settles O14: the step is `SHIN`'s own effect, whose sample is the level the DUT drove. -/
theorem shinShiftsSampleIn : Obligations.ShinShiftsSampleIn := by
  intro s q hrun
  refine ⟨microOp .shin q s, engineStep_of_fits hrun rfl, s.readLine_dutDrive, fun j => ?_, ?_, s.answerAt_dutDrive,
    fun _ => rfl⟩
  · rw [microOp_shin]
    exact getLsbD_shiftIn s.acc (s.answerAt 0) j
  · rw [microOp_shin]

/-- Settles O15: each step is the store's own effect on the byte it names. -/
theorem storesWriteAccumulatorBytes : Obligations.StoresWriteAccumulatorBytes := by
  intro s high a q ha hrun
  cases high with
  | false => exact ⟨_, _, engineStep_of_fits hrun (decide_eq_true ha), rfl, rfl, opStl_cbufRead a s⟩
  | true => exact ⟨_, _, engineStep_of_fits hrun (decide_eq_true ha), rfl, rfl, opSth_cbufRead a s⟩

/-! ### The samples of a read as a byte (R56, R126) -/

/-- The `m` answers of the DUT from the `i`-th on, shifted into a cleared accumulator (R122, R124). -/
def State.sampledWord (s : State) (i m : Nat) : Half := (s.answers i m).foldl shiftIn 0

/-- The low byte of the sampled word, which `STL` stores (R123). -/
def State.sampledByte (s : State) (i m : Nat) : Byte := (s.sampledWord i m).extractLsb' 0 8

/-- Up to eight samples fill the byte, the last one at bit 0. -/
theorem State.getLsbD_sampledByte (s : State) (i j : Nat) {m : Nat} (hm : m ≤ 8) :
    (s.sampledByte i m).getLsbD j = (decide (j < m) && s.answerAt (i + (m - 1 - j))) := by
  rw [State.sampledByte, BitVec.getLsbD_extractLsb', Nat.zero_add, State.sampledWord, getLsbD_answers s i j (by omega)]
  by_cases hj : j < m
  · have hj8 : j < 8 := by omega
    simp [hj8]
  · simp [hj]

/-- Up to eight samples leave the high byte 0, so the accumulator is the byte. -/
theorem State.sampledWord_eq_zeroExtend (s : State) (i : Nat) {m : Nat} (hm : m ≤ 8) :
    s.sampledWord i m = (s.sampledByte i m).zeroExtend 16 := by
  refine BitVec.eq_of_getLsbD_eq fun j hj => ?_
  rw [BitVec.zeroExtend, BitVec.getLsbD_setWidth, s.getLsbD_sampledByte i j hm, State.sampledWord,
    getLsbD_answers s i j (by omega), decide_eq_true hj, Bool.true_and]

theorem State.sampledWord_high (s : State) (i : Nat) {m : Nat} (hm : m ≤ 8) :
    (s.sampledWord i m).extractLsb' 8 8 = 0 := by
  rw [s.sampledWord_eq_zeroExtend i hm]
  ext j hj
  simp

/-! ### A word read: samples, trace, answers and lines (R124) -/

theorem acts_readWord_sampledWord (m j : Nat) (s : State) : (acts (readWord m j) s).acc = s.sampledWord 0 m :=
  acts_readWord_acc m j s

@[simp] theorem opStl_trace (a : Nat) (s : State) : (opStl a s).trace = s.trace ++ [Event.store a s.accLow] := rfl

@[simp] theorem opSth_trace (a : Nat) (s : State) : (opSth a s).trace = s.trace ++ [Event.store a s.accHigh] := rfl

theorem acts_wordStores_trace (j : Nat) (s : State) :
    (acts (wordStores j) s).trace =
      s.trace ++ [Event.store (3 * j) s.accLow, Event.store (3 * j + 1) s.accHigh, Event.store (3 * j + 2) s.accHigh] := by
  simp [acts_wordStores]

theorem acts_wordStores_answerAt (j k : Nat) (s : State) : (acts (wordStores j) s).answerAt k = s.answerAt k := by
  simp [acts_wordStores, opSth, opStl]

@[simp] theorem opAclr_answerAt (k : Nat) (s : State) : (opAclr s).answerAt k = s.answerAt k := by simp [opAclr]

/-- The trace of a word: the clearing, the pulses with their samples, the three stores (R124). -/
theorem acts_readWord_trace (m j : Nat) (s : State) :
    (acts (readWord m j) s).trace = s.trace ++ [Event.clear] ++ pulsesTrace (s.answers 0 m) ++
      [Event.store (3 * j) (s.sampledByte 0 m), Event.store (3 * j + 1) ((s.sampledWord 0 m).extractLsb' 8 8),
        Event.store (3 * j + 2) ((s.sampledWord 0 m).extractLsb' 8 8)] := by
  have hanswers : (opAclr s).answers 0 m = s.answers 0 m := by simp [State.answers]
  have hacc : (acts (readPulses m) (opAclr s)).acc = s.sampledWord 0 m := by
    rw [acts_readPulses_acc, hanswers]
    rfl
  rw [acts_readWord, acts_wordStores_trace, acts_readPulses_trace, hanswers, State.accLow, State.accHigh, hacc]
  rfl

theorem acts_readWord_answerAt (m j : Nat) (s : State) (k : Nat) :
    (acts (readWord m j) s).answerAt k = s.answerAt (m + k) := by
  rw [acts_readWord, acts_wordStores_answerAt, acts_readPulses_answerAt, opAclr_answerAt]

/-- A word read leaves `CLK` low and drives no other line (R124). -/
theorem acts_readWord_line {m : Nat} (hm : 0 < m) (j : Nat) (s : State) (l : Line) :
    (acts (readWord m j) s).line l = if l = .clk then false else s.line l := by
  rw [acts_line, readWord_eq, levelAfter_cons, levelAfter_append, levelAfter_readPulses]
  simp [hm, wordStores, levelAfter]

/-! ### The completed `SPI.RD` (R126, R149) -/

@[simp] theorem State.begun_answers (s : State) (type code : Byte) (i m : Nat) :
    (s.begun type code).answers i m = s.answers i m := by
  simp [State.answers]

@[simp] theorem State.begun_sampledWord (s : State) (type code : Byte) (i m : Nat) :
    (s.begun type code).sampledWord i m = s.sampledWord i m := by
  simp [State.sampledWord]

@[simp] theorem State.begun_sampledByte (s : State) (type code : Byte) (i m : Nat) :
    (s.begun type code).sampledByte i m = s.sampledByte i m := by
  simp [State.sampledByte]

/-- The end of a read command: a reply of two armed and the `DONE` (R149, R151). -/
def State.replied (s : State) : State := (opArm 2 s).finish .ok

@[simp] theorem State.replied_acc (s : State) : s.replied.acc = s.acc := rfl
@[simp] theorem State.replied_replyLen (s : State) : s.replied.replyLen = 2 := rfl
@[simp] theorem State.replied_seq (s : State) : s.replied.seq = .idle := rfl
@[simp] theorem State.replied_reqValid (s : State) : s.replied.reqValid = s.reqValid := rfl
@[simp] theorem State.replied_waitCnt (s : State) : s.replied.waitCnt = s.waitCnt := rfl
@[simp] theorem State.replied_cbufRead (s : State) (a : Nat) : s.replied.cbufRead a = s.cbufRead a := rfl
@[simp] theorem State.replied_line (s : State) (l : Line) : s.replied.line l = s.line l := rfl
@[simp] theorem State.replied_answerAt (s : State) (j : Nat) : s.replied.answerAt j = s.answerAt j := rfl
@[simp] theorem State.replied_trace (s : State) : s.replied.trace = s.trace ++ [Event.arm 2] ++ [Event.done .ok] := rfl

theorem State.replied_replyBytes (s : State) : s.replied.replyBytes = [s.cbufRead 0, s.cbufRead 1] := rfl

/-- The state of `SPI.RD` after its one word (R125, R149). -/
def State.spiWord (s : State) : State := acts (readWord 8 0) (s.begun 0xC0 0xDD)

/-- `SPI.RD` is a word of eight bits and the reply. -/
theorem exec_spiRd_completes {s : State} (hbusy : s.epBusy = false) : exec .spiRd s = .next s.spiWord.replied := by
  have hops : readOps = readWord 8 0 ++ [.arm 2] := rfl
  rw [exec_eq, program, runCommand_spiRd hbusy, hops, acts_append]
  rfl

theorem State.spiWord_acc (s : State) : s.spiWord.acc = s.sampledWord 0 8 := by
  rw [State.spiWord, acts_readWord_sampledWord, State.begun_sampledWord]

/-- The byte read and two zero bytes after it, the high byte of the accumulator being 0 (R126). -/
theorem State.spiWord_cbufRead (s : State) :
    s.spiWord.cbufRead 0 = s.sampledByte 0 8 ∧ s.spiWord.cbufRead 1 = 0 ∧ s.spiWord.cbufRead 2 = 0 := by
  have hword := acts_wordStores_cbufRead (acts_readWord 8 0 (s.begun 0xC0 0xDD))
  rwa [← State.spiWord, State.accLow, State.accHigh, s.spiWord_acc, s.sampledWord_high 0 (Nat.le_refl 8)] at hword

theorem State.spiWord_cbufRead_of_ge (s : State) {a : Nat} (ha : 3 ≤ a) : s.spiWord.cbufRead a = s.cbufRead a := by
  refine (acts_cbufRead_other (fun op hop hoff => ?_) _).trans (s.begun_cbufRead 0xC0 0xDD a)
  have := storeOffset_readWord hop hoff
  omega

theorem State.spiWord_accepted (s : State) : s.spiWord.reqValid = false ∧ s.spiWord.waitCnt = 0 := by
  rw [State.spiWord, acts_reqValid, acts_waitCnt, State.begun_reqValid, State.begun_waitCnt]
  exact ⟨rfl, rfl⟩

theorem State.spiWord_line (s : State) (l : Line) : s.spiWord.line l = if l = .clk then false else s.line l := by
  rw [State.spiWord, acts_readWord_line (by decide), State.begun_line]

theorem State.spiWord_answerAt (s : State) (j : Nat) : s.spiWord.answerAt j = s.answerAt (8 + j) := by
  rw [State.spiWord, acts_readWord_answerAt, State.begun_answerAt]

theorem State.spiWord_trace (s : State) :
    s.spiWord.trace = s.trace ++ [Event.request 0xC0 0xDD] ++ [Event.idle] ++ [Event.clear] ++ pulsesTrace (s.answers 0 8)
      ++ [Event.store 0 (s.sampledByte 0 8), Event.store 1 0, Event.store 2 0] := by
  rw [State.spiWord, acts_readWord_trace, State.begun_answers, State.begun_sampledByte, State.begun_sampledWord,
    s.sampledWord_high 0 (Nat.le_refl 8), State.begun_trace]

/-- Settles O28: `SPI.RD` is its one word of eight bits, read into the cleared accumulator. -/
theorem spiReadResult : Obligations.SpiReadResult := by
  intro s hbusy
  obtain ⟨hbyte, hone, htwo⟩ := s.spiWord_cbufRead
  obtain ⟨hvalid, hwait⟩ := s.spiWord_accepted
  refine ⟨s.spiWord.replied, s.sampledByte 0 8, exec_spiRd_completes hbusy, fun j hj => ?_,
    (State.replied_cbufRead ..).trans hbyte, (State.replied_cbufRead ..).trans hone, (State.replied_cbufRead ..).trans htwo,
    ?_, State.replied_replyLen _, ?_, fun a ha => (State.replied_cbufRead ..).trans (s.spiWord_cbufRead_of_ge ha),
    State.replied_seq _, (State.replied_reqValid _).trans hvalid, (State.replied_waitCnt _).trans hwait,
    fun l => (State.replied_line ..).trans (s.spiWord_line l),
    fun j => (State.replied_answerAt ..).trans (s.spiWord_answerAt j), ?_⟩
  · have hlast : 0 + (8 - 1 - (7 - j)) = j := by omega
    rw [s.getLsbD_sampledByte 0 (7 - j) (Nat.le_refl 8), hlast, decide_eq_true (by omega), Bool.true_and]
  · rw [State.replied_acc, s.spiWord_acc, s.sampledWord_eq_zeroExtend 0 (Nat.le_refl 8)]
  · rw [State.replied_replyBytes, hbyte, hone]
  · rw [State.replied_trace, s.spiWord_trace]
    simp

/-! ### What a read command leaves alone (R104, R149, R151) -/

/-- Whether a micro-op is one a read of `n` bytes may have: a pulse on `CLK`, a sample, a store below offset `n`, a reply. -/
def isReadOp (n : Nat) : MicroOp → Bool
  | .set l => l == .clk
  | .clr l => l == .clk
  | .stl a => decide (a < n)
  | .sth a => decide (a < n)
  | .hold => true
  | .aclr => true
  | .shin => true
  | .arm _ => true
  | _ => false

theorem isPlain_of_isReadOp {n : Nat} {op : MicroOp} (h : isReadOp n op = true) : isPlain op = true := by
  cases op with
  | waitIdle | stageW | stageE | done => cases h
  | _ => rfl

theorem storeOffset_of_isReadOp {n a : Nat} {op : MicroOp} (h : isReadOp n op = true) (ha : storeOffset op = some a) :
    a < n := by
  cases op with
  | stl | sth => cases ha; exact of_decide_eq_true h
  | _ => cases ha

theorem line_of_isReadOp {n : Nat} {ops : List MicroOp} (h : ∀ op ∈ ops, isReadOp n op = true) {l : Line}
    (hl : MicroOp.set l ∈ ops ∨ MicroOp.clr l ∈ ops) : l = .clk := by
  rcases hl with hset | hclr
  · exact of_decide_eq_true (h _ hset)
  · exact of_decide_eq_true (h _ hclr)

theorem readOps_isReadOp : ∀ op ∈ readOps, isReadOp 3 op = true := by decide

theorem statusOps_isReadOp : ∀ op ∈ statusOps, isReadOp 2 op = true := by decide

/-- What is the same before and after a read command that stores below offset `n`, however it ends. -/
structure ReadFrame (n : Nat) (s t : State) : Prop where
  platform : SamePlatform s t
  header : SameHeader s t
  swWord : t.swWord = s.swWord
  swCount : t.swCount = s.swCount
  enCode : t.enCode = s.enCode
  buffer : sameBufferFrom n s t
  port : samePortBut [.clk] s t
  input : ∀ j, j ≠ s.params.pinDin → t.inBit j = s.inBit j

/-- Acceptance, the wait, the trace and the sequencer are within the frame of a read. -/
theorem ReadFrame.of_bookkeeping (n : Nat) (s : State) (valid : Bool) (sq : Seq) (wait : Nat) (tr : List Event) :
    ReadFrame n s { s with reqValid := valid, seq := sq, waitCnt := wait, trace := tr } where
  platform := ⟨rfl, rfl, rfl, rfl, rfl⟩
  header := ⟨rfl, rfl, rfl⟩
  swWord := rfl
  swCount := rfl
  enCode := rfl
  buffer _ _ := rfl
  port _ _ := rfl
  input _ _ := rfl

/-- The micro-ops of a read, run from the passed wait to the `DONE`. -/
theorem ReadFrame.of_completed {n : Nat} {ops : List MicroOp} (h : ∀ op ∈ ops, isReadOp n op = true) (s : State)
    (type code : Byte) : ReadFrame n s ((acts ops (s.begun type code)).finish .ok) where
  platform := ⟨acts_params _ _, acts_resets _ _, acts_schedule _ _, acts_hostReplies _ _, acts_epBusy _ _⟩
  header := ⟨acts_reqType _ _, acts_reqCode _ _, acts_reqLen _ _⟩
  swWord := acts_swWord _ _
  swCount := acts_swCount _ _
  enCode := acts_enCode _ _
  buffer _ ha := acts_cbufRead_other
    (fun op hop hoff => absurd (storeOffset_of_isReadOp (h op hop) hoff) (Nat.not_lt.2 ha)) (s.begun type code)
  port i hi := acts_portBit (s := s.begun type code) fun l hl => hi l (by simp [line_of_isReadOp h hl])
  input _ hj := acts_inBit ops (s.begun type code) hj

/-- The three ends of a read command: completed, held, given up (R143). -/
theorem exec_readCommand_frame {i : Instr} {n : Nat} {ops : List MicroOp} {s t : State} (hwaits : waitsForIdle i = true)
    (hprog : program i = .waitIdle :: (ops ++ [.done .ok]))
    (hops : ∀ op ∈ ops, isReadOp n op = true) (hlen : ops.length ≤ 1298) (h : exec i s = .next t) : ReadFrame n s t := by
  rw [exec_eq] at h
  cases h
  rcases wait_cases hwaits s with hidle | ⟨-, -, hheld⟩ | ⟨limit, -, -, hgiven⟩
  · rw [hprog, runCommand_plain hidle _ _ (fun op hop => isPlain_of_isReadOp (hops op hop)) hlen]
    exact .of_completed hops s _ _
  · rw [hheld]
    exact .of_bookkeeping ..
  · rw [hgiven]
    exact .of_bookkeeping ..

/-- Settles O40: both programs are a wait, read micro-ops that store below their offset, and a `DONE`. -/
theorem readCommandFrame : Obligations.ReadCommandFrame := by
  intro i s t hi h
  have hframe : ReadFrame (if i = .spiRd then 3 else 2) s t := by
    rcases hi with rfl | rfl | rfl
    · exact exec_readCommand_frame (i := .spiRd) rfl programSpiRd_eq readOps_isReadOp (by decide) h
    · exact exec_readCommand_frame (i := .statRd _) rfl programStatRd_eq statusOps_isReadOp (by decide) h
    · exact exec_readCommand_frame (i := .statRd _) rfl programStatRd_eq statusOps_isReadOp (by decide) h
  obtain ⟨hplatform, hheader, hword, hcount, hcode, hbuffer, hport, hinput⟩ := hframe
  exact ⟨hplatform, hheader, hword, hcount, hcode, hbuffer, hport, hinput⟩

end Sys2Proof.Machine
end

section
/-! PROOFS. The status snapshot (family 43): one field of it as a run of micro-ops, the state `STAT.RD` completes in (R132,
R135), and its pulses on the lines (R133). -/

namespace Sys2Proof.Machine

/-! ### One field of the snapshot (R131, R132) -/

/-- A field of `m` samples, read into the cleared accumulator and stored at offset `a` (R131). -/
def readField (m a : Nat) : List MicroOp := .aclr :: (readPulses m ++ [.stl a])

theorem acts_readField (m a : Nat) (s : State) : acts (readField m a) s = opStl a (acts (readPulses m) (opAclr s)) := by
  rw [readField, acts_cons, acts_append]
  rfl

theorem opAclr_answers (s : State) (i n : Nat) : (opAclr s).answers i n = s.answers i n := by
  simp only [State.answers, opAclr_answerAt]

theorem acts_readPulses_opAclr_acc (m : Nat) (s : State) :
    (acts (readPulses m) (opAclr s)).acc = s.sampledWord 0 m := by
  rw [acts_readPulses_acc, opAclr_answers]
  rfl

theorem acts_readField_acc (m a : Nat) (s : State) : (acts (readField m a) s).acc = s.sampledWord 0 m := by
  rw [acts_readField, opStl_acc, acts_readPulses_opAclr_acc]

/-- A field stores the byte of its samples at its own offset and nothing else (R123, R132). -/
theorem acts_readField_cbufRead (m a : Nat) (s : State) (b : Nat) :
    (acts (readField m a) s).cbufRead b = if b = a then s.sampledByte 0 m else s.cbufRead b := by
  have hkept : (acts (readPulses m) (opAclr s)).cbufRead b = s.cbufRead b :=
    acts_cbufRead_other (fun op hop hoff => by simp [storeOffset_readPulses m op hop] at hoff) (opAclr s)
  rw [acts_readField, opStl_cbufRead, State.accLow, acts_readPulses_opAclr_acc, hkept, State.sampledByte]

theorem acts_readField_trace (m a : Nat) (s : State) :
    (acts (readField m a) s).trace =
      s.trace ++ [Event.clear] ++ pulsesTrace (s.answers 0 m) ++ [Event.store a (s.sampledByte 0 m)] := by
  rw [acts_readField, opStl_trace, State.accLow, acts_readPulses_opAclr_acc, acts_readPulses_trace, opAclr_answers]
  rfl

/-- A field of `m` samples uses up `m` answers of the DUT (R28). -/
theorem acts_readField_answerAt (m a : Nat) (s : State) (j : Nat) :
    (acts (readField m a) s).answerAt j = s.answerAt (m + j) := by
  rw [acts_readField, ← opAclr_answerAt (m + j), ← acts_readPulses_answerAt]
  rfl

theorem acts_readField_answers (m a : Nat) (s : State) (i n : Nat) :
    (acts (readField m a) s).answers i n = s.answers (m + i) n := by
  simp only [State.answers, acts_readField_answerAt, Nat.add_assoc]

theorem acts_readField_sampledWord (m a : Nat) (s : State) (i n : Nat) :
    (acts (readField m a) s).sampledWord i n = s.sampledWord (m + i) n := by
  rw [State.sampledWord, acts_readField_answers, State.sampledWord]

theorem acts_readField_sampledByte (m a : Nat) (s : State) (i n : Nat) :
    (acts (readField m a) s).sampledByte i n = s.sampledByte (m + i) n := by
  rw [State.sampledByte, acts_readField_sampledWord, State.sampledByte]

/-- A field of at least one sample leaves `CLK` low and drives no other line (R133). -/
theorem acts_readField_line {m : Nat} (hm : 0 < m) (a : Nat) (s : State) (l : Line) :
    (acts (readField m a) s).line l = if l = .clk then false else s.line l := by
  rw [acts_line, readField, levelAfter_cons, levelAfter_append, levelAfter_readPulses]
  simp [hm, levelAfter]

/-! ### The completed `STAT.RD` (R132, R135, R151) -/

/-- The state of `STAT.RD` after its two fields (R131). -/
def State.statFields (s : State) (d : Dir) : State :=
  acts (readField 8 1) (acts (readField 2 0) (s.begun d.typeByte 0xDF))

/-- `STAT.RD` is its two fields and the reply. -/
theorem exec_statRd_completes (d : Dir) {s : State} (hbusy : s.epBusy = false) :
    exec (.statRd d) s = .next (s.statFields d).replied := by
  have hops : statusOps = readField 2 0 ++ (readField 8 1 ++ [.arm 2]) := rfl
  rw [exec_eq, program, runCommand_statRd hbusy, hops, acts_append, acts_append]
  rfl

theorem State.statFields_acc (s : State) (d : Dir) : (s.statFields d).acc = s.sampledWord 2 8 := by
  rw [State.statFields, acts_readField_acc, acts_readField_sampledWord, State.begun_sampledWord]

/-- The second field leaves the byte of the first, and both leave the bytes from offset 2 on (R132). -/
theorem State.statFields_cbufRead (s : State) (d : Dir) (a : Nat) :
    (s.statFields d).cbufRead a =
      if a = 1 then s.sampledByte 2 8 else if a = 0 then s.sampledByte 0 2 else s.cbufRead a := by
  simp only [State.statFields, acts_readField_cbufRead, acts_readField_sampledByte, State.begun_sampledByte,
    State.begun_cbufRead, Nat.add_zero]

theorem State.statFields_accepted (s : State) (d : Dir) :
    (s.statFields d).reqValid = false ∧ (s.statFields d).waitCnt = 0 := by
  simp only [State.statFields, acts_reqValid, acts_waitCnt, State.begun_reqValid, State.begun_waitCnt, and_self]

theorem State.statFields_line (s : State) (d : Dir) (l : Line) :
    (s.statFields d).line l = if l = .clk then false else s.line l := by
  rw [State.statFields, acts_readField_line (by decide), acts_readField_line (by decide), State.begun_line]
  split <;> rfl

theorem State.statFields_answerAt (s : State) (d : Dir) (j : Nat) :
    (s.statFields d).answerAt j = s.answerAt (10 + j) := by
  rw [State.statFields, acts_readField_answerAt, acts_readField_answerAt, State.begun_answerAt, ← Nat.add_assoc]

theorem State.statFields_trace (s : State) (d : Dir) :
    (s.statFields d).trace = s.trace ++ [Event.request d.typeByte 0xDF] ++ [Event.idle]
      ++ [Event.clear] ++ pulsesTrace (s.answers 0 2) ++ [Event.store 0 (s.sampledByte 0 2)]
      ++ [Event.clear] ++ pulsesTrace (s.answers 2 8) ++ [Event.store 1 (s.sampledByte 2 8)] := by
  simp only [State.statFields, acts_readField_trace, acts_readField_answers, acts_readField_sampledByte,
    State.begun_answers, State.begun_sampledByte, State.begun_trace, Nat.add_zero]

/-- Two samples fill bits 1 and 0 of their byte (R132). -/
theorem State.getLsbD_sampledByte_two (s : State) (j : Nat) :
    (s.sampledByte 0 2).getLsbD j = if j = 1 then s.answerAt 0 else (decide (j = 0) && s.answerAt 1) := by
  rw [s.getLsbD_sampledByte 0 j (by decide)]
  match j with
  | 0 | 1 => rfl
  | j + 2 => simp

/-- Settles O29: `STAT.RD` is two fields in a row, and the second reads the answers the first leaves. -/
theorem statusReadResult : Obligations.StatusReadResult := by
  intro d s hbusy
  have hzero : (s.statFields d).cbufRead 0 = s.sampledByte 0 2 := s.statFields_cbufRead d 0
  have hone : (s.statFields d).cbufRead 1 = s.sampledByte 2 8 := s.statFields_cbufRead d 1
  obtain ⟨hvalid, hwait⟩ := s.statFields_accepted d
  refine ⟨(s.statFields d).replied, s.sampledByte 0 2, s.sampledByte 2 8, exec_statRd_completes d hbusy,
    s.getLsbD_sampledByte_two, fun j hj => ?_, (State.replied_cbufRead ..).trans hzero,
    (State.replied_cbufRead ..).trans hone, ?_, State.replied_replyLen _, ?_, fun a ha => ?_, State.replied_seq _,
    (State.replied_reqValid _).trans hvalid, (State.replied_waitCnt _).trans hwait,
    fun l => (State.replied_line ..).trans (s.statFields_line d l),
    fun j => (State.replied_answerAt ..).trans (s.statFields_answerAt d j), ?_⟩
  · have hlast : 8 - 1 - (7 - j) = j := by omega
    rw [s.getLsbD_sampledByte 2 (7 - j) (Nat.le_refl 8), hlast, decide_eq_true (by omega), Bool.true_and]
  · rw [State.replied_acc, s.statFields_acc, s.sampledWord_eq_zeroExtend 2 (Nat.le_refl 8)]
  · rw [State.replied_replyBytes, hzero, hone]
  · rw [State.replied_cbufRead, s.statFields_cbufRead, if_neg (by omega), if_neg (by omega)]
  · rw [State.replied_trace, s.statFields_trace]
    simp

/-! ### The pulses on the lines (R13, R133) -/

theorem lineEvents_append (tr tr' : List Event) : lineEvents (tr ++ tr') = lineEvents tr ++ lineEvents tr' :=
  List.filter_append tr tr'

/-- The clock pulse of a sample is the same on the lines whatever the sample is (R133). -/
theorem lineEvents_pulseTrace (b : Bool) : lineEvents (pulseTrace b) = [.up .clk, .hold, .down .clk, .hold] := rfl

theorem lineEvents_pulsesTrace (bs : List Bool) :
    lineEvents (pulsesTrace bs) = (List.replicate bs.length [Event.up .clk, .hold, .down .clk, .hold]).flatten := by
  induction bs with
  | nil => rfl
  | cons b bs ih =>
    rw [pulsesTrace, List.flatMap_cons, lineEvents_append, lineEvents_pulseTrace, ← pulsesTrace, ih, List.length_cons,
      List.replicate_succ, List.flatten_cons]

theorem lineEvents_singleton (e : Event) : lineEvents [e] = bif isLineEvent e then [e] else [] :=
  List.filter_singleton

/-- The clearings and the stores of `STAT.RD` change no line: only its pulses are seen there (R133). -/
theorem State.lineEvents_replied_statFields (s : State) (d : Dir) :
    lineEvents (s.statFields d).replied.trace =
      lineEvents s.trace ++ lineEvents (pulsesTrace (s.answers 0 2)) ++ lineEvents (pulsesTrace (s.answers 2 8)) := by
  simp only [State.replied_trace, State.statFields_trace, lineEvents_append, lineEvents_singleton, isLineEvent,
    cond_false, List.append_nil]

/-- Settles O31: the two pulses of the first field and the eight of the second are ten of one kind. -/
theorem statusPulsesAreUniform : Obligations.StatusPulsesAreUniform := by
  intro d s t hbusy h
  rw [exec_statRd_completes d hbusy] at h
  cases h
  rw [s.lineEvents_replied_statFields d, lineEvents_pulsesTrace, lineEvents_pulsesTrace, State.length_answers,
    State.length_answers, List.append_assoc, ← List.flatten_append, ← List.replicate_add]

end Sys2Proof.Machine
end

section
/-! PROOFS. The dispatcher (family 44): the micro-ops that choose what comes next and those that end a command (R143 to R147),
acceptance (R140), the reply of an upload (R146) and `UNKNOWN` (R153). -/

namespace Sys2Proof.Machine

/-! ### `WAITIDLE` (R143) -/

/-- A busy poll below the limit is counted, and the wait goes on. -/
theorem opWaitIdle_poll {s : State} {limit : Nat} (hbusy : s.epBusy = true) (hlimit : s.params.epWaitLimit = some limit)
    (hbelow : s.waitCnt < limit) (q : List MicroOp) :
    opWaitIdle q s = (s.countPoll.emit .poll).resume (.waitIdle :: q) := by
  simp [opWaitIdle, hbusy, hlimit, hbelow]

/-- A busy poll that finds the counter at the limit gives the command up. -/
theorem opWaitIdle_giveUp {s : State} {limit : Nat} (hbusy : s.epBusy = true)
    (hlimit : s.params.epWaitLimit = some limit) (hreached : limit ≤ s.waitCnt) (q : List MicroOp) :
    opWaitIdle q s = (s.emit .poll).resume [.done .endpointTimeout] := by
  simp [opWaitIdle, hbusy, hlimit, hreached]

/-- Settles O17: the wait passes, is held, counts a poll or gives up, by the flag, the limit and the counter. -/
theorem waitIdleProceedsOrHolds : Obligations.WaitIdleProceedsOrHolds := by
  intro s q hrun
  have hstep : engineStep s = .next (opWaitIdle q s) := engineStep_of_fits hrun rfl
  split_ifs with hidle
  · rw [hstep, opWaitIdle_pass hidle]
    rfl
  · have hbusy : s.epBusy = true := Bool.eq_true_of_not_eq_false hidle
    refine ⟨engineStep_held hrun hbusy, fun limit hlimit => ⟨fun hbelow => ?_, fun hreached => ?_⟩⟩
    · rw [hstep, opWaitIdle_poll hbusy hlimit hbelow, State.resume_self (s := s.countPoll.emit .poll) hrun]
      rfl
    · rw [hstep, opWaitIdle_giveUp hbusy hlimit hreached.ge]
      rfl

/-! ### `STAGEW` and `STAGEE` (R144, R145) -/

/-- A count is refused by the strict parameter alone, and only outside 1 to 32. -/
theorem State.refusesCount_iff (s : State) (n : Byte) :
    s.refusesCount n = true ↔ s.params.strictBitCount = true ∧ (n.toNat = 0 ∨ 32 < n.toNat) := by
  simp [State.refusesCount, countOutsideRange]

/-- Settles O18: the count is refused or the write expanded, and the word and count are staged in both cases. -/
theorem stageWriteLoadsAndExpands : Obligations.StageWriteLoadsAndExpands := by
  intro s st q hrun
  refine ⟨opStageW st q s, s.payloadWord, s.payloadCount, engineStep_of_fits hrun rfl, rfl, rfl, ?_⟩
  cases hcount : s.refusesCount s.payloadCount with
  | true =>
    rw [opStageW_refused hcount, if_pos ((s.refusesCount_iff _).1 hcount)]
    exact ⟨rfl, rfl⟩
  | false =>
    have haccepted := mt (s.refusesCount_iff s.payloadCount).2 (Bool.eq_false_iff.1 hcount)
    rw [opStageW_expands hcount, if_neg haccepted, List.append_assoc]
    exact ⟨rfl, rfl⟩

/-- The status of `CEPD.WR` by the four mapped codes. -/
theorem enableStatus_eq (c : Byte) :
    enableStatus c = if c = 0x04 ∨ c = 0x14 ∨ c = 0x0C ∨ c = 0x1C then .ok else .unknownEnableCode := by
  simp [enableStatus, codeMapped, or_assoc]

/-- Settles O19: the step is `STAGEE`'s own effect, whose status is by the four mapped codes. -/
theorem stageEnableLoadsAndExpands : Obligations.StageEnableLoadsAndExpands := by
  intro s q hrun
  refine ⟨s.cbufRead 0, _, rfl, rfl, ?_⟩
  rw [engineStep_of_fits hrun rfl, ← enableStatus_eq, List.append_assoc]
  rfl

/-! ### `ARM` and `DONE` (R146, R147) -/

/-- An `ARM` of any length runs: no store is made (R146). -/
theorem engineStep_arm {s : State} {n : Nat} {q : List MicroOp} (hrun : s.seq = .run (.arm n :: q)) :
    engineStep s = .next ((opArm n s).resume q) :=
  engineStep_of_run hrun

/-- Settles O20: the step is `ARM`'s own effect, the reply length and one event. -/
theorem armSetsReplyLength : Obligations.ArmSetsReplyLength := fun _ _ _ hrun => engineStep_arm hrun

/-- Settles O21: the step is `DONE`'s own effect, the idle sequencer and one event. -/
theorem doneReturnsToIdle : Obligations.DoneReturnsToIdle := fun _ _ _ hrun => engineStep_of_fits hrun rfl

/-! ### Acceptance (R140) -/

/-- Settles O22: a request of a direction's type byte is accepted; any other is refused, and without one the block waits. -/
theorem acceptanceStartsProgram : Obligations.AcceptanceStartsProgram := by
  intro s hidle
  split_ifs with h
  · obtain ⟨hreq, hsel⟩ := h
    obtain ⟨d, hd⟩ := selects_iff.1 hsel
    have hdec : decodeHeader s.reqType s.reqCode = .instr (decodeCommand d s.reqCode) := by
      rw [hd, decodeHeader_typeByte]
    exact ⟨_, hdec, engineStep_accept hidle hreq hdec⟩
  · intro t ht
    cases hreq : s.reqValid with
    | false =>
      rw [engineStep_of_no_request hidle hreq] at ht
      cases ht
      rfl
    | true =>
      rw [engineStep_not_selected hidle hreq fun hsel => h ⟨hreq, hsel⟩] at ht
      cases ht

/-! ### The reply of an upload (R146, R183; log 9) -/

theorem usbcStep_takeReply_of_upload {s : State} (hidle : s.seq = .idle) (hreq : s.reqValid = false)
    (hup : s.reqType = 0xC0) :
    usbcStep .takeReply s = .next { s with hostReplies := s.hostReplies ++ [s.replyBytes] } :=
  (if_pos ⟨hidle, hreq⟩).trans (if_pos hup)

/-- Settles O33: an idle block without a request sends the first `REPLY_LEN` bytes. -/
theorem takeReplySendsReplyBytes : Obligations.TakeReplySendsReplyBytes := fun _ => usbcStep_takeReply_of_upload

/-- Settles O32: `SPI.RD` ends idle with the byte read and a zero byte for its reply, in the latch the request it came with. -/
theorem hostReceivesReadByte : Obligations.HostReceivesReadByte := by
  intro s hbusy hup
  obtain ⟨t, v, hexec, hbyte, -, -, -, -, -, hreply, -, hidle, hreq, -⟩ := spiReadResult s hbusy
  obtain ⟨hplatform, hheader, -⟩ := readCommandFrame .spiRd s t (.inl rfl) hexec
  refine ⟨t, _, v, hexec, usbcStep_takeReply_of_upload hidle hreq (hheader.reqType.trans hup), hbyte, ?_⟩
  rw [hplatform.hostReplies, hreply]

/-! ### `UNKNOWN` (R153) -/

/-- Settles O35: `UNKNOWN` has no wait, so it is acceptance, `ARM 0` and `DONE` in every state. -/
theorem unknownCommandResult : Obligations.UnknownCommandResult := by
  intro d c s
  have htrace : s.trace ++ [.request d.typeByte c] ++ [.arm 0] ++ [.done .unknownCommand] =
      s.trace ++ [.request d.typeByte c, .arm 0, .done .unknownCommand] := by simp
  rw [exec_eq, program, runCommand_unknown, ← htrace]
  rfl

end Sys2Proof.Machine
end

section
/-! PROOFS. How a command ends under the dispatcher: held by a busy endpoint and resumed (R143, R203), given up under a limit
(R143, R171), its count refused (R144), and all that `CEPD.WR` leaves alone (R104, R152). -/

namespace Sys2Proof.Machine

/-! ### The held wait (R143, R203) -/

/-- Without a limit a busy endpoint holds the command where acceptance left it. -/
theorem exec_held {i : Instr} {s : State} (hwaits : waitsForIdle i = true) (hbusy : s.epBusy = true)
    (hlimit : s.params.epWaitLimit = none) : exec i s = .next (s.accept i.typeByte i.codeByte (program i)) := by
  rw [exec_eq, program_of_waits hwaits, runCommand_held hbusy hlimit]

/-- An accepted command that waits is one `ENGINE` cannot move on while the endpoint is busy. -/
theorem engineStep_accept_held {i : Instr} {s : State} (hwaits : waitsForIdle i = true) (hbusy : s.epBusy = true)
    (hlimit : s.params.epWaitLimit = none) (type code : Byte) :
    engineStep (s.accept type code (program i)) = .next (s.accept type code (program i)) :=
  engineStep_held (congrArg Seq.run (program_of_waits hwaits)) hbusy hlimit

/-- Settles O36: the accepted state is one no step of `ENGINE` changes, and a running block takes no other step. -/
theorem busyEndpointHangs : Obligations.BusyEndpointHangs := by
  intro i s hwaits hbusy hlimit
  have hfixed := engineStep_accept_held hwaits hbusy hlimit i.typeByte i.codeByte
  refine ⟨_, exec_held hwaits hbusy hlimit, rfl, engineSteps_of_fixed hfixed, fun hsched => ?_⟩
  have hpend : (s.accept i.typeByte i.codeByte (program i)).pending = none := State.pending_eq_none (.inr rfl)
  exact (step_of_not_pending (s := s.accept ..) hsched hpend).trans hfixed

/-- From acceptance on, a command with an idle endpoint is a number of `ENGINE`'s steps and ends idle (R36, R37). -/
theorem engineSteps_accept_of_not_busy (i : Instr) {s : State} (hidle : s.epBusy = false) :
    ∃ u k, engineSteps k (s.accept i.typeByte i.codeByte (program i)) = .next u ∧ u.seq = .idle ∧ exec i s = .next u := by
  obtain ⟨k, hk⟩ := engineSteps_drive (commandSteps s) _ (s.queueRuns_accept i.typeByte i.codeByte i)
  exact ⟨_, k, hk, runCommand_seq_of_not_busy i hidle, exec_eq i s⟩

/-- Settles O37: clearing the flag of the held state gives the accepted state of the command with an idle endpoint. -/
theorem heldCommandResumes : Obligations.HeldCommandResumes := by
  intro i s hwaits hbusy hlimit
  obtain ⟨u, k, hsteps, hidle, hexec⟩ := engineSteps_accept_of_not_busy i (s := { s with epBusy := false }) rfl
  exact ⟨_, _, u, k, exec_held hwaits hbusy hlimit, rfl, hsteps, hidle, hexec⟩

/-! ### The wait that gives up (R143, R171) -/

/-- Settles O38: from acceptance, with `WAITCNT` 0, `limit` polls are counted, one more finds the limit, and `DONE` follows. -/
theorem busyEndpointTimesOut : Obligations.BusyEndpointTimesOut := by
  intro i s limit hwaits hbusy hlimit
  have htrace : s.trace ++ [.request i.typeByte i.codeByte] ++ List.replicate limit .poll ++ [.poll] =
      s.trace ++ [.request i.typeByte i.codeByte] ++ List.replicate (limit + 1) .poll := by
    rw [List.replicate_succ', List.append_assoc _ _ [Event.poll]]
  rw [exec_eq, program_of_waits hwaits, runCommand_timeout hbusy hlimit, ← htrace, State.polled, State.accept, Nat.zero_add]
  rfl

/-! ### The refused count (R144, R171) -/

/-- Settles O27: a refused write stages its word and count and ends, and staging writes no bit of the port. -/
theorem strictCountRefused : Obligations.StrictCountRefused := by
  intro st s hidle hstrict hcount
  refine ⟨_, exec_writeCommand st s, ?_⟩
  rw [runCommand_refused hidle _ _ st ((s.refusesCount_iff _).2 ⟨hstrict, hcount⟩)]
  refine ⟨rfl, fun _ => rfl, rfl, rfl, rfl, rfl, ?_⟩
  simp

/-! ### What `CEPD.WR` leaves alone (R104, R152) -/

/-- What is the same before and after `CEPD.WR`, however it ends. -/
structure EnableFrame (s t : State) : Prop where
  platform : SamePlatform s t
  header : SameHeader s t
  input : SameInput s t
  acc : t.acc = s.acc
  swWord : t.swWord = s.swWord
  swCount : t.swCount = s.swCount
  replyLen : t.replyLen = s.replyLen
  draws : t.draws = s.draws
  buffer : sameBufferFrom 0 s t
  port : samePortBut [.ce, .pdrf] s t

/-- Acceptance, the wait, the trace and the sequencer are within the frame of `CEPD.WR`. -/
theorem EnableFrame.of_bookkeeping (s : State) (valid : Bool) (sq : Seq) (wait : Nat) (tr : List Event) :
    EnableFrame s { s with reqValid := valid, seq := sq, waitCnt := wait, trace := tr } where
  platform := ⟨rfl, rfl, rfl, rfl, rfl⟩
  header := ⟨rfl, rfl, rfl⟩
  input := ⟨rfl, rfl⟩
  acc := rfl
  swWord := rfl
  swCount := rfl
  replyLen := rfl
  draws := rfl
  buffer _ _ := rfl
  port _ _ := rfl

/-- Line micro-ops on `CE` and `PDRF` alone, run from the loaded code to the `DONE`. -/
theorem EnableFrame.of_completed {ops : List MicroOp} (hops : ∀ op ∈ ops, isLineOp op = true)
    (hlines : ∀ l, (MicroOp.set l ∈ ops ∨ MicroOp.clr l ∈ ops) → l = .ce ∨ l = .pdrf) (s : State) (type code c : Byte)
    (st : Status) : EnableFrame s ((acts ops ((s.begun type code).loadEnableCode c)).finish st) where
  platform := ⟨acts_params _ _, acts_resets _ _, acts_schedule _ _, acts_hostReplies _ _, acts_epBusy _ _⟩
  header := ⟨acts_reqType _ _, acts_reqCode _ _, acts_reqLen _ _⟩
  input := ⟨acts_lineOps_portIn hops _, acts_lineOps_dutAnswers hops _⟩
  acc := acts_lineOps_acc hops _
  swWord := acts_swWord _ _
  swCount := acts_swCount _ _
  replyLen := acts_lineOps_replyLen hops _
  draws := acts_lineOps_draws hops _
  buffer a _ := acts_lineOps_cbufRead hops _ a
  port _ hi := acts_portBit (s := (s.begun type code).loadEnableCode c) fun l hl => hi l (by simpa using hlines l hl)

/-- Settles O41: the three ends of `CEPD.WR`, completed, held and given up, keep the frame. -/
theorem enableCommandFrame : Obligations.EnableCommandFrame := by
  intro s t h
  have hframe : EnableFrame s t := by
    rw [exec_eq] at h
    cases h
    rcases wait_cases (i := .cepdWr) rfl s with hidle | ⟨-, -, hheld⟩ | ⟨limit, -, -, hgiven⟩
    · rw [program, runCommand_enable hidle]
      exact .of_completed (uopsEnable_lineOps _) (fun _ => mem_uopsEnable_line) s _ _ _ _
    · rw [hheld]
      exact .of_bookkeeping ..
    · rw [hgiven]
      exact .of_bookkeeping ..
  obtain ⟨hplatform, hheader, hinput, hacc, hword, hcount, hreply, hdraws, hbuffer, hport⟩ := hframe
  exact ⟨hplatform, hheader, hinput, hacc, hword, hcount, hreply, hdraws, hbuffer, hport⟩

end Sys2Proof.Machine
end

section
/-! PROOFS. The end of `CEPD.WR` with the endpoint idle: `CE` and `PDRF` by the code's row (R84, R162, R163). -/

namespace Sys2Proof.Machine

/-- The two levels of a code as one chain over the rows of R84, both low below it. -/
theorem ceOf_pdrfOf_eq (c : Byte) :
    (ceOf c, pdrfOf c) =
      if c = 0x04 then (false, false) else if c = 0x14 then (false, true) else if c = 0x0C then (true, false)
      else if c = 0x1C then (true, true) else (false, false) := by
  unfold ceOf pdrfOf
  split_ifs <;> simp_all

/-- An accepted `CEPD.WR` past its wait, with its code loaded (R145). -/
def State.stagedEnable (s : State) : State := (s.begun 0x40 0xD8).loadEnableCode s.payloadCode

/-- The state a completed `CEPD.WR` ends in: `uops_enable` from the staged state, then `DONE` (R145, R152). -/
def State.enabled (s : State) : State :=
  (acts (uopsEnable s.payloadCode) s.stagedEnable).finish (enableStatus s.payloadCode)

/-- With the endpoint idle `CEPD.WR` completes. -/
theorem exec_cepdWr_completes {s : State} (hidle : s.epBusy = false) : exec .cepdWr s = .next s.enabled := by
  rw [exec_eq, program, runCommand_enable hidle]
  rfl

/-- The level of each line after `CEPD.WR` (R162, R163). -/
theorem State.enabled_line (s : State) (l : Line) :
    s.enabled.line l = if l = .ce then ceOf s.payloadCode else if l = .pdrf then pdrfOf s.payloadCode else s.line l := by
  rw [State.enabled, State.finish_line, acts_line, levelAfter_uopsEnable, State.stagedEnable, State.loadEnableCode_line,
    State.begun_line]

/-- The trace of `CEPD.WR` (R145, R161). -/
theorem State.enabled_trace (s : State) :
    s.enabled.trace = s.trace ++ [.request 0x40 0xD8, .idle, .loadCode s.payloadCode] ++ enableTrace s.payloadCode ++
      [.done (enableStatus s.payloadCode)] := by
  rw [State.enabled, State.finish_trace, acts_lineOps_trace (uopsEnable_lineOps _), map_lineEvent_uopsEnable]
  simp [State.stagedEnable]

/-- Settles O34: the lines of the completed command are the row's levels, and `uops_enable` writes nothing else but the trace. -/
theorem enableCommandResult : Obligations.EnableCommandResult := by
  intro s hidle
  have hlineOps := uopsEnable_lineOps s.payloadCode
  refine ⟨s.enabled, s.payloadCode, exec_cepdWr_completes hidle, rfl, ?code, ?row, ?others, ?acc, ?buffer, ?reply, rfl,
    ?request, ?wait, ?trace⟩
  case row =>
    rw [State.enabled_line, State.enabled_line, if_pos rfl, if_neg (by decide), if_pos rfl]
    exact ceOf_pdrfOf_eq _
  case others =>
    intro l hce hpdrf
    rw [State.enabled_line, if_neg hce, if_neg hpdrf]
  case acc => simp [State.enabled, State.stagedEnable, acts_lineOps_acc hlineOps]
  case buffer => simp [State.enabled, State.stagedEnable, acts_lineOps_cbufRead hlineOps]
  case reply => simp [State.enabled, State.stagedEnable, acts_lineOps_replyLen hlineOps]
  case trace => rw [State.enabled_trace, enableStatus_eq]
  case code | request | wait => simp [State.enabled, State.stagedEnable]

end Sys2Proof.Machine
end

section
/-! PROOFS. The statuses a command of the default configuration ends with (R171, R173), and two moves of `USBC` by right: a
request is presented and the busy flag driven (R34, R183). -/

namespace Sys2Proof.Machine

/-! ### The statuses of the default configuration (R143, R144, R171, R173) -/

/-- The statuses that need neither a strict parameter nor a limit (R173). -/
def isDefaultStatus : Status → Bool
  | .ok | .unknownCommand | .unknownEnableCode => true
  | .invalidBitCount | .endpointTimeout => false

theorem isDefaultStatus_iff (st : Status) :
    isDefaultStatus st = true ↔ st = .ok ∨ st = .unknownCommand ∨ st = .unknownEnableCode := by
  cases st <;> decide

theorem isDefaultStatus_enableStatus (c : Byte) : isDefaultStatus (enableStatus c) = true := by
  rw [enableStatus_eq]
  split <;> rfl

/-- Whether a micro-op, if it ends a command, ends it with a default status. -/
def endsByDefault : MicroOp → Bool
  | .done st => isDefaultStatus st
  | _ => true

theorem endsByDefault_of_isLineOp {op : MicroOp} (h : isLineOp op = true) : endsByDefault op = true := by
  cases op with
  | done st => cases h
  | _ => rfl

theorem endsByDefault_program (i : Instr) : ∀ op ∈ program i, endsByDefault op = true :=
  have h : ∀ q ∈ programs, ∀ op ∈ q, endsByDefault op = true := by decide
  h _ (program_mem_programs i)

/-- Whatever runs next ends the command with a default status. -/
def State.QueueEndsByDefault (s : State) : Prop := ∀ q, s.seq = .run q → ∀ op ∈ q, endsByDefault op = true

/-- Line micro-ops and a default `DONE` put before a queue: what staging expands to (R144, R145). -/
theorem endsByDefault_staged {ops q : List MicroOp} {st : Status} (hops : ∀ op ∈ ops, isLineOp op = true)
    (hst : isDefaultStatus st = true) (hq : ∀ op ∈ q, endsByDefault op = true) :
    ∀ op ∈ ops ++ .done st :: q, endsByDefault op = true :=
  List.forall_mem_append.2 ⟨fun op ho => endsByDefault_of_isLineOp (hops op ho), List.forall_mem_cons.2 ⟨hst, hq⟩⟩

/-- The two other statuses come into a queue only through a refused count and a wait given up, and the default configuration
has neither. -/
theorem microOp_queueEndsByDefault (op : MicroOp) {q : List MicroOp} {s : State}
    (hstrict : s.params.strictBitCount = false) (hlimit : s.params.epWaitLimit = none)
    (hq : ∀ o ∈ q, endsByDefault o = true) : (microOp op q s).QueueEndsByDefault := by
  cases op with
  | waitIdle =>
    rw [show microOp .waitIdle q s = opWaitIdle q s from rfl]
    cases hbusy : s.epBusy with
    | false =>
      rw [opWaitIdle_pass hbusy]
      exact State.forall_queue rfl hq
    | true =>
      rw [opWaitIdle_hold hbusy hlimit]
      exact State.forall_queue rfl (List.forall_mem_cons.2 ⟨rfl, hq⟩)
  | stageW st =>
    have hcount : s.refusesCount s.payloadCount = false := by simp [State.refusesCount, hstrict]
    rw [show microOp (.stageW st) q s = opStageW st q s from rfl, opStageW_expands hcount]
    exact State.forall_queue rfl (endsByDefault_staged (uopsWrite_lineOps _ _ _ _) rfl hq)
  | stageE =>
    exact State.forall_queue rfl (endsByDefault_staged (uopsEnable_lineOps _) (isDefaultStatus_enableStatus _) hq)
  | done st => exact fun _ hrun => nomatch hrun
  | set | clr | hold | aclr | shin | stl | sth | arm => exact State.forall_queue rfl hq

/-- Every `DONE` event added to the trace has a default status. -/
def DefaultDones (s t : State) : Prop :=
  ∃ ev, t.trace = s.trace ++ ev ∧ ∀ st, Event.done st ∈ ev → isDefaultStatus st = true

theorem DefaultDones.refl (s : State) : DefaultDones s s :=
  ⟨[], by simp⟩

theorem DefaultDones.trans {s t u : State} (h : DefaultDones s t) (h' : DefaultDones t u) : DefaultDones s u := by
  obtain ⟨ev, htrace, hev⟩ := h
  obtain ⟨ev', htrace', hev'⟩ := h'
  refine ⟨ev ++ ev', by rw [htrace', htrace, List.append_assoc], fun st hst => ?_⟩
  exact (List.mem_append.1 hst).elim (hev st) (hev' st)

/-- One event that is no `DONE`. -/
theorem DefaultDones.of_event {s t : State} {e : Event} (htrace : t.trace = s.trace ++ [e])
    (he : ∀ st, Event.done st ≠ e) : DefaultDones s t :=
  ⟨[e], htrace, fun st hst => absurd (List.mem_singleton.1 hst) (he st)⟩

theorem opWaitIdle_defaultDones (q : List MicroOp) (s : State) : DefaultDones s (opWaitIdle q s) := by
  unfold opWaitIdle
  split
  · exact .of_event rfl nofun
  · split
    · exact .refl s
    · split <;> exact .of_event rfl nofun

/-- Only `DONE` records a `DONE` event, with its own status (R147). -/
theorem microOp_defaultDones {op : MicroOp} (h : endsByDefault op = true) (q : List MicroOp) (s : State) :
    DefaultDones s (microOp op q s) := by
  cases op with
  | done st =>
    refine ⟨[.done st], rfl, fun st' hst => ?_⟩
    obtain rfl : st' = st := Event.done.inj (List.mem_singleton.1 hst)
    exact h
  | waitIdle => exact opWaitIdle_defaultDones q s
  | stageW st => simp only [microOp, opStageW]; split <;> exact .of_event rfl nofun
  | set | clr | hold | aclr | shin | stl | sth | arm | stageE => exact .of_event rfl nofun

theorem drive_defaultDones (n : Nat) : ∀ s : State, s.params.strictBitCount = false → s.params.epWaitLimit = none →
    s.QueueEndsByDefault → DefaultDones s (drive n s) := by
  induction n with
  | zero => exact fun s _ _ _ => .refl s
  | succ n ih =>
    intro s hstrict hlimit hs
    unfold drive
    split
    case h_1 op q hrun =>
      obtain ⟨hop, hq⟩ := List.forall_mem_cons.1 (hs _ hrun)
      have hparams : (microOp op q s).params = s.params := microOp_params op q s
      refine (microOp_defaultDones hop q s).trans (ih _ ?_ ?_ (microOp_queueEndsByDefault op hstrict hlimit hq))
      · rw [hparams, hstrict]
      · rw [hparams, hlimit]
    case h_2 => exact .refl s
    case h_3 => exact .refl s

/-- Settles O50: a program ends with a default status, and without the parameters no micro-op puts another into the queue. -/
theorem defaultStatuses : Obligations.DefaultStatuses := by
  intro i s t hstrict hlimit h
  rw [exec_eq] at h
  cases h
  have haccept : DefaultDones s (s.accept i.typeByte i.codeByte (program i)) := .of_event rfl nofun
  obtain ⟨ev, htrace, hev⟩ := haccept.trans
    (drive_defaultDones _ _ hstrict hlimit (State.forall_queue rfl (endsByDefault_program i)))
  exact ⟨ev, htrace, fun st hst => (isDefaultStatus_iff st).1 (hev st hst)⟩

/-! ### A request presented (R35, R183) -/

/-- Bytes written from offset 0 on are read there, and every byte beyond them is as before. -/
theorem Memory.getD_find_writeList_zero (m : List Host.Cell) (vs : List Byte) (a : Nat) (d : Byte) :
    (Memory.find (Memory.writeList m 0 vs) a).getD d = (vs[a]?).getD ((Memory.find m a).getD d) := by
  rw [Memory.find_writeList, Nat.sub_zero]
  by_cases ha : a < vs.length <;> simp [ha]

theorem usbcStep_present_of_free {s : State} (hfree : s.seq = .idle ∧ s.reqValid = false) {len : Half}
    {payload : List Byte} (hlen : payload.length ≤ len.toNat) (hsize : payload.length ≤ s.cbufSize) (type code : Byte) :
    usbcStep (.present type code len payload) s =
      .next { s with
        reqType := type
        reqCode := code
        reqLen := len
        reqValid := true
        cbuf := Memory.writeList s.cbuf 0 payload } :=
  (if_pos hfree).trans (if_pos ⟨hlen, hsize⟩)

/-- Settles O54: a free block latches the request and its payload is listed from offset 0 on; any other refuses it. -/
theorem requestPresented : Obligations.RequestPresented := by
  intro s type code len payload hlen hsize
  split_ifs with hfree
  · exact ⟨_, usbcStep_present_of_free hfree hlen hsize type code, rfl,
      fun a => Memory.getD_find_writeList_zero s.cbuf payload a _⟩
  · exact if_neg hfree

/-! ### The busy flag (R34, R183) -/

theorem usbcStep_setBusy_of_not_owned {s : State} (h : ownsBuffer s.seq = false) :
    usbcStep .setBusy s = .next { s with epBusy := true } :=
  if_neg (Bool.eq_false_iff.1 h)

/-- Settles O56: an idle block and a command that has passed no wait do not own the buffer, so the flag is `USBC`'s to set. -/
theorem usbcDrivesBusyFlag : Obligations.UsbcDrivesBusyFlag := by
  refine fun s => ⟨rfl, fun hsit => usbcStep_setBusy_of_not_owned ?_⟩
  rcases hsit with hidle | hqueue
  · rw [hidle]
    rfl
  · exact ownsBuffer_of_no_wait_passed hqueue

end Sys2Proof.Machine
end

section
/-! PROOFS. Two hazards: a write that finds `CLK` high (R197), and a reset in the middle of whatever the block does (R190,
R192). -/

namespace Sys2Proof.Machine

/-! ### A write started with `CLK` high (R118, R197)

The first group's `CLK+` is no rising edge, but its `CLK-` leaves the clock low, so only the first bit is lost. -/

/-- The strobe going low before a write hands the chip no bit. -/
theorem shiftedOut_strobeDown (st : Strobe) (clk data : Bool) (tr : List Event) :
    shiftedOut clk data (.down (strobeLine st) :: tr) = shiftedOut clk data tr := by
  cases st <;> rfl

/-- The strobe pulse after a write hands the chip no bit. -/
theorem shiftedOut_strobePulse (st : Strobe) (clk data : Bool) :
    shiftedOut clk data [.hold, .up (strobeLine st), .hold, .down (strobeLine st)] = [] := by
  cases st <;> rfl

/-- From `CLK` high a group hands the chip no bit and leaves `CLK` low. -/
theorem shiftedOut_groupTrace_of_high (data b : Bool) (tr : List Event) :
    shiftedOut true data (groupTrace b ++ tr) = shiftedOut false b tr := by
  cases b <;> rfl

/-- From `CLK` high the chip takes every bit a write drives but the first (R197). -/
theorem shiftedOut_writeTrace_of_high (draw : Nat → Bool) (n : Nat) (w : Word) (st : Strobe) (data : Bool) :
    shiftedOut true data (writeTrace draw n w st) = (writeBits draw n w).tail := by
  rw [writeTrace, List.append_assoc, List.singleton_append, shiftedOut_strobeDown]
  cases writeBits draw n w with
  | nil => exact shiftedOut_strobePulse st true data
  | cons b bs =>
    rw [groupsTrace_cons, List.append_assoc, shiftedOut_groupTrace_of_high,
      shiftedOut_groupsTrace (shiftedOut_strobePulse st false), List.tail_cons]

/-- Settles O26: the events are those of the write, whose first group from `CLK` high is lost. -/
theorem highClockLosesFirstBit : Obligations.HighClockLosesFirstBit := by
  intro st s hbusy hcount _
  exact ⟨s.written st, writeTrace s.drawAt s.payloadCount.toNat s.payloadWord st,
    exec_writeCommand_completes hbusy hcount st, s.written_trace st, shiftedOut_writeTrace_of_high ..⟩

/-! ### A reset at any time (R190, R192) -/

/-- A scheduled reset answers the state after reset, the rest of the schedule to come. -/
theorem step_of_scheduled_reset {s : State} {rest : List Move} (h : s.schedule = .reset :: rest) :
    step s = .next { s with schedule := rest }.hardReset :=
  step_of_scheduled h

/-- Settles O53: the step is the reset, whose registers are those of `State.resetWith` and whose trace is the old one. -/
theorem resetEventAtAnyTime : Obligations.ResetEventAtAnyTime := fun _ _ h =>
  ⟨_, step_of_scheduled_reset h, rfl, rfl, rfl, rfl, fun _ => rfl, rfl, rfl, rfl⟩

end Sys2Proof.Machine
end
